-- ==== Sys2Proof/Word.lean ====
section
/-! DEFINITION. The two bit-vector types of the block: the 32-bit port word and the 8-bit byte
(spec 00_scope.md R7, R10).  Every value of the block is unsigned (R10, R68). -/

namespace Sys2Proof

/-- A port word, a command word or a CRC value: 32 bits, bit 0 least significant (R7, R10). -/
abbrev Word := BitVec 32

/-- One data byte: IMM8, one CRC input unit, one GUID buffer byte (R7, R49). -/
abbrev Byte := BitVec 8

/-- A 4-bit port word index WIDX (R29), or the 4-bit IDX field of a command (R50). -/
abbrev Index4 := BitVec 4

/-- A 16-byte GUID buffer, byte 0 first (R7, R17, R18). -/
abbrev Buffer := Vector Byte 16

end Sys2Proof
end

