-- ==== Sys2Proof/Syntax.lean ====
section
/-! DEFINITION. The six commands of the block, one constructor per row of spec/opcode_table.json
(30_encoding.md R48).  Register operands are implicit in the opcode (R20, R48); the only explicit
operands are the IMM8 byte and the IDX index, and their types are exactly the widths of those fields
(R49, R50), so that every term is a legal command. -/

namespace Sys2Proof

/-- A legal command (R53: what `decode` answers when it does not answer Illegal). -/
inductive Instr where
  /-- NOP (42_control.md R89). -/
  | nop
  /-- CRC.INIT (40_crc.md R63). -/
  | crcInit
  /-- CRC.FEED b (40_crc.md R64). -/
  | crcFeed (b : Byte)
  /-- GUID.LD i, b (41_guid.md R79). -/
  | guidLd (i : Index4) (b : Byte)
  /-- GUID.DEC (41_guid.md R80). -/
  | guidDec
  /-- GUID.ENC (41_guid.md R81). -/
  | guidEnc
  deriving DecidableEq, Repr

end Sys2Proof
end

