-- ==== Sys2Proof/WellFormed.lean ====
section
/-! DEFINITION. Format C as raw fields, and the check that says which field values are a legal
command (30_encoding.md R47, R48, R51, R52).  A term of `Instr` needs no check of its own: its
operand types are the field widths.  The check is written independently of `decode` (Decode.lean);
that the two agree is an obligation. -/

namespace Sys2Proof

/-- The four fields of a command word in format C (R47). -/
structure FormatC where
  op : BitVec 8
  rsv : BitVec 12
  idx : Index4
  imm : Byte
  deriving DecidableEq, Repr

/-- The check "RSV is 0", asked of every command (R51). -/
def FormatC.rsvOk (f : FormatC) : Bool := f.rsv == 0#12

/-- The check "OP is one of the six opcodes" (R48, R55). -/
def FormatC.opOk (f : FormatC) : Bool :=
  [0x00#8, 0x01#8, 0x02#8, 0x10#8, 0x11#8, 0x12#8].contains f.op

/-- The check "IDX is 0 unless the command is GUID.LD" (R52). -/
def FormatC.idxOk (f : FormatC) : Bool := f.op == 0x10#8 || f.idx == 0#4

/-- The check "IMM8 is 0 unless the command is CRC.FEED or GUID.LD" (R52). -/
def FormatC.immOk (f : FormatC) : Bool := f.op == 0x02#8 || f.op == 0x10#8 || f.imm == 0#8

/-- The fields are those of a legal command (R48, R51, R52). -/
def FormatC.wellFormed (f : FormatC) : Bool := f.rsvOk && f.opOk && f.idxOk && f.immOk

end Sys2Proof
end

