-- ==== Sys2Proof/Decode.lean ====
section
/-! DEFINITION. The decoder, total on all 2^32 command words and refusing by name
(30_encoding.md R46 to R57), and the encoder (R58). -/

namespace Sys2Proof

/-- Why a word is illegal.  The block records none of this (R94): the three names only say which
rule of the spec makes the word illegal (DESIGN CHOICE, log entry 11). -/
inductive IllegalWord where
  /-- RSV, bits 23:12, is not 0 (R51). -/
  | reservedFieldSet
  /-- IDX or IMM8 is not 0 in a command that does not use it (R52, R56). -/
  | unusedFieldSet
  /-- OP is one of the 250 reserved values (R55). -/
  | reservedOpcode
  deriving DecidableEq, Repr

/-- The answer of `decode` (R53): a command, or Illegal with the rule broken. -/
inductive Decoded where
  | command (i : Instr)
  | illegal (why : IllegalWord)
  deriving DecidableEq, Repr

/-- The field split of format C (R47): OP = w[31:24], RSV = w[23:12], IDX = w[11:8], IMM8 = w[7:0]. -/
def splitFields (w : Word) : FormatC where
  op := w.extractLsb' 24 8
  rsv := w.extractLsb' 12 12
  idx := w.extractLsb' 8 4
  imm := w.extractLsb' 0 8

/-- `i` where a field that must be 0 is 0, Illegal where it is not (R52). -/
def commandIf (unusedAreZero : Bool) (i : Instr) : Decoded :=
  if unusedAreZero then .command i else .illegal .unusedFieldSet

/-- The decoder of R53, branch by branch. -/
def decode (w : Word) : Decoded :=
  let f := splitFields w
  if f.rsv ≠ 0#12 then .illegal .reservedFieldSet
  else if f.op = 0x00#8 then commandIf (f.idx == 0#4 && f.imm == 0#8) .nop
  else if f.op = 0x01#8 then commandIf (f.idx == 0#4 && f.imm == 0#8) .crcInit
  else if f.op = 0x02#8 then commandIf (f.idx == 0#4) (.crcFeed f.imm)
  else if f.op = 0x10#8 then .command (.guidLd f.idx f.imm)
  else if f.op = 0x11#8 then commandIf (f.idx == 0#4 && f.imm == 0#8) .guidDec
  else if f.op = 0x12#8 then commandIf (f.idx == 0#4 && f.imm == 0#8) .guidEnc
  else .illegal .reservedOpcode

/-- The command a word decodes to, none where the word is illegal. -/
def decodeCommand (w : Word) : Option Instr :=
  match decode w with
  | .command i => some i
  | .illegal _ => none

/-- The word is illegal (R54). -/
def isIllegal (w : Word) : Bool := (decodeCommand w).isNone

/-! ### The encoder (R48, R58) -/

/-- The OP value of a command (R48). -/
def opcodeOf : Instr → BitVec 8
  | .nop => 0x00#8
  | .crcInit => 0x01#8
  | .crcFeed _ => 0x02#8
  | .guidLd _ _ => 0x10#8
  | .guidDec => 0x11#8
  | .guidEnc => 0x12#8

/-- The IDX field of a command: the byte index of GUID.LD, 0 in every other command (R47). -/
def idxOf : Instr → Index4
  | .guidLd i _ => i
  | .nop => 0#4
  | .crcInit => 0#4
  | .crcFeed _ => 0#4
  | .guidDec => 0#4
  | .guidEnc => 0#4

/-- The IMM8 field of a command: the data byte of CRC.FEED and GUID.LD, 0 in every other command (R47). -/
def immOf : Instr → Byte
  | .crcFeed b => b
  | .guidLd _ b => b
  | .nop => 0#8
  | .crcInit => 0#8
  | .guidDec => 0#8
  | .guidEnc => 0#8

/-- The encoder of R58: `{OP, 12'b0, IDX, IMM8}`. -/
def encode (i : Instr) : Word := opcodeOf i ++ 0#12 ++ idxOf i ++ immOf i

/-! ### The host's numbering of an instruction's bits -/

/-- The command word whose low `nbits` bits are those of `w` and whose other bits are 0.  The block has
one format of one 32-bit word (R46) and the port no byte order (R37), so bit k of the table is bit k of
the word (DEDUCED, log entry 10). -/
def tableWord (nbits w : Nat) : Word := BitVec.ofNat 32 (w % 2 ^ nbits)

/-- The instruction the decoder reads from an instruction whose bits, as spec/opcode_table.json numbers
them, are `w`; none where the decoder refuses the word. -/
def decodeTableWord (nbits w : Nat) : Option Instr := decodeCommand (tableWord nbits w)

end Sys2Proof
end

