-- ==== Sys2Proof/Config.lean ====
section
/-! DEFINITION. The values the spec leaves open.  They are opaque: no proof can learn any of them.
R7 leaves no implementation parameter of the block open; what is open is the content of the block
before its first Reset (R27, U4) and, in host software, the letter case of a rendered GUID (U8). -/

namespace Sys2Proof

/-- ACC after power-up and before the first Reset: any value (R27, U4; log entry 5). -/
opaque Config.powerUpAcc : Word

/-- Byte `j` of GIN after power-up and before the first Reset: any value (R27, U4; log entry 5). -/
opaque Config.powerUpGin : Nat → Byte

/-- Byte `j` of GOUT after power-up and before the first Reset: any value (R27, U4; log entry 5). -/
opaque Config.powerUpGout : Nat → Byte

/-- STATUS.ILL after power-up and before the first Reset: any value (R27, U4; log entry 5). -/
opaque Config.powerUpIll : Bool

/-- Whether the host renders the hex digits of a GUID in upper case: any value (R86, U8; log entry 14). -/
opaque Config.guidUpperCase : Bool

end Sys2Proof
end

