-- ==== Sys2Proof/Machine/Transaction.lean ====
section
/-! DEFINITION. What the host can ask of the block: the three port transactions (00_scope.md R8), the
registers of the port (20_memory.md R30), and an access of a byte-addressed host bus, which is a port
transaction only when it is one whole aligned word (R29, R38). -/

namespace Sys2Proof.Machine

/-- The registers of the port by name (R30).  `ginW k` is GIN_Wk and `goutW k` is GOUT_Wk;
`reserved k` is the reserved register at word index 12 + k. -/
inductive PortReg where
  | cmd
  | status
  | crcAcc
  | crcRes
  | ginW (k : Fin 4)
  | goutW (k : Fin 4)
  | reserved (k : Fin 4)
  deriving DecidableEq, Repr

/-- The port transactions.  There is no other (R8). -/
inductive Transaction where
  /-- `Write(widx, data)` (R31). -/
  | write (widx : Index4) (data : Word)
  /-- `Read(widx)`, which returns a word (R32). -/
  | read (widx : Index4)
  /-- `Reset` (R109). -/
  | reset
  deriving DecidableEq, Repr

/-- How wide a bus access is.  Only a whole word reaches a register (R29). -/
inductive AccessSize where
  | byte
  | halfword
  | word
  deriving DecidableEq, Repr

/-- The direction of a bus access. -/
inductive BusOp where
  | write (data : Word)
  | read
  deriving DecidableEq, Repr

/-- One access of a byte-addressed host bus to the block's window 0x00..0x3F (R29): a byte offset, a
width and the byte enables the bus drives.  The port has no byte enables and no address bits [1:0]
(R38), so most of these are no port transaction at all (DESIGN CHOICE, log entry 6). -/
structure BusAccess where
  offset : BitVec 6
  size : AccessSize
  enables : BitVec 4
  op : BusOp
  deriving DecidableEq, Repr

/-- One request of the host: a port transaction, or an access of its bus. -/
inductive HostRequest where
  | port (t : Transaction)
  | bus (a : BusAccess)
  deriving DecidableEq, Repr

end Sys2Proof.Machine
end

