-- ==== Sys2Proof/Machine/State.lean ====
section
/-! DEFINITION. The state: the four elements of 10_state.md R15, and beside them the two lists by which
the host's side of the port reaches a step that takes no argument (log entries 1 and 2). -/

namespace Sys2Proof.Machine

/-- The state.  `acc`, `gin`, `gout` and `ill` are the block's whole architectural state (R15, R25).
`pending` and `reads` are not state of the block: they are the host's. -/
structure State where
  /-- ACC, the running CRC value (R16). -/
  acc : Word
  /-- GIN[0..15], the GUID input bytes (R17). -/
  gin : Buffer
  /-- GOUT[0..15], the GUID output bytes (R18). -/
  gout : Buffer
  /-- STATUS.ILL, the sticky illegal-command flag (R19). -/
  ill : Bool
  /-- The host's requests that have not reached the block yet, oldest first (R8, R40; DESIGN CHOICE, log entry 1). -/
  pending : List HostRequest
  /-- The words the Read transactions returned, oldest first: the observation of a run (R9; DESIGN CHOICE, log entry 2). -/
  reads : List Word
  deriving DecidableEq, Repr

/-- What stops the machine with a fault: nothing does.  The block's one exception, IllegalCommand, sets
STATUS.ILL and goes on (R94, R95, R97), so a step never faults (DEDUCED, log entry 9). -/
inductive Fault where
  deriving DecidableEq, Repr

/-- Why the model gives a request no meaning. -/
inductive Refusal where
  /-- An instruction whose arm of `exec` is not written.  No arm raises it in this model.  Safe. -/
  | notModelled (mnemonic : String)
  /-- Raised by `step` on a narrow, byte-enabled or misaligned bus access, which "a model refuses"
  (R38, U5).  Safe: the spec gives such an access no effect (log entry 6). -/
  | notAWholeAlignedWord
  deriving DecidableEq, Repr

/-- The outcome of a step or of a meaning. -/
abbrev Result := Host.Outcome State Fault Refusal

/-- The state right after Reset (R26, R109), with nothing asked and nothing read yet. -/
def State.reset : State where
  acc := 0xFFFFFFFF#32
  gin := Vector.replicate 16 0x00#8
  gout := Vector.replicate 16 0x00#8
  ill := false
  pending := []
  reads := []

/-- The state after power-up and before the first Reset: every element of R15 is a free value (R27, R110). -/
def State.powerUp : State where
  acc := Config.powerUpAcc
  gin := Vector.ofFn fun j => Config.powerUpGin j.val
  gout := Vector.ofFn fun j => Config.powerUpGout j.val
  ill := Config.powerUpIll
  pending := []
  reads := []

end Sys2Proof.Machine
end

