-- ==== Sys2Proof/Machine/Flags.lean ====
section
/-! DEFINITION. The block's one flag, STATUS.ILL (10_state.md R19, R23, R24).  There are no condition
codes, and no command writes a flag (R23). -/

namespace Sys2Proof.Machine

/-- The STATUS word: ILL in bit 0, bits 31:1 read as 0 (R24, R30). -/
def statusWord (ill : Bool) : Word := (BitVec.ofBool ill).setWidth 32

/-- ILL after an illegal word: 1, whatever it was (R95, R96). -/
def illAfterIllegal (_ : Bool) : Bool := true

/-- ILL after Reset (R109). -/
def illAfterReset : Bool := false

end Sys2Proof.Machine
end

