-- ==== Sys2Proof/Machine/Operands.lean ====
section
/-! DEFINITION. Operand forms: how IMM8 meets ACC (30_encoding.md R49, 40_crc.md R64), how IDX names a
byte of GIN (R50), how a buffer is packed into a port word (20_memory.md R33), and how a word index
names a register (R30). -/

namespace Sys2Proof.Machine

/-- IMM8 as a 32-bit operand: zero extended, never sign extended (R11, R49). -/
def zext32 (b : Byte) : Word := b.setWidth 32

/-- The table index of CRC.FEED (R64): `n = (ACC XOR zext_32(b)) AND 0x000000FF`, a value below 256. -/
def feedIndex (acc : Word) (b : Byte) : Byte := ((acc ^^^ zext32 b) &&& 0x000000FF#32).setWidth 8

/-- The index a 4-bit IDX field names in a 16-byte buffer: unsigned, not scaled (R50). -/
def bufferIndex (i : Index4) : Fin 16 := i.toFin

/-- Word `k` of a buffer in little-endian lanes (R33): bits [8j+7:8j] hold byte 4k+j. -/
def laneWord (x : Buffer) (k : Fin 4) : Word :=
  x[4 * k.val + 3] ++ x[4 * k.val + 2] ++ x[4 * k.val + 1] ++ x[4 * k.val]

/-- The register map (R30), word index 0 first. -/
def portMap : Vector PortReg 16 :=
  #v[.cmd, .status, .crcAcc, .crcRes,
     .ginW 0, .ginW 1, .ginW 2, .ginW 3,
     .goutW 0, .goutW 1, .goutW 2, .goutW 3,
     .reserved 0, .reserved 1, .reserved 2, .reserved 3]

/-- The register a word index names (R30). -/
def portReg (widx : Index4) : PortReg := portMap[widx.toFin]

/-- The word index of a byte offset: register WIDX is at offset 4*WIDX (R29). -/
def widxOfOffset (offset : BitVec 6) : Index4 := offset.extractLsb' 2 4

/-- A bus access is one whole, fully enabled, aligned word (R29, R38). -/
def wholeAlignedWord (a : BusAccess) : Bool :=
  a.size == .word && a.enables == 0xF#4 && a.offset.extractLsb' 0 2 == 0#2

/-- The port transaction of a whole word access in a direction, at a word index (R8). -/
def wordTransaction (widx : Index4) : BusOp → Transaction
  | .write data => .write widx data
  | .read => .read widx

/-- The port transaction a bus access is, none where it is narrow, byte-enabled or misaligned (R38). -/
def busTransaction (a : BusAccess) : Option Transaction :=
  if wholeAlignedWord a then some (wordTransaction (widxOfOffset a.offset) a.op) else none

end Sys2Proof.Machine
end

