-- ==== Sys2Proof/Machine/Ops.lean ====
section
/-! DEFINITION. The shared operations: the CRC table and its step (40_crc.md), the GUID permutation
(41_guid.md), the reads and writes of the block's registers, the illegal-command effect
(60_exceptions.md R95) and, as the only way back from it (R101), Reset (70_reset_and_hazards.md R109).
The block has no memory and no program counter (R22, R28). -/

namespace Sys2Proof.Machine

/-! ### The CRC-32 unit -/

/-- The reflected polynomial (R2, R7). -/
def crcPoly : Word := 0xEDB88320#32

/-- The initial accumulator (R7, R63). -/
def crcInitialAcc : Word := 0xFFFFFFFF#32

/-- The final XOR (R7, R21). -/
def crcFinalXor : Word := 0xFFFFFFFF#32

/-- One round of the table's construction (R62): shift right, and XOR the polynomial if bit 0 was set. -/
def crcRound (c : Word) : Word := if c.getLsbD 0 then (c >>> 1) ^^^ crcPoly else c >>> 1

/-- `n` rounds. -/
def crcRounds : Nat → Word → Word
  | 0, c => c
  | n + 1, c => crcRounds n (crcRound c)

/-- The constant table T, computed from its construction as D23 asks (R25, R62; PRESUMED by the
spec, log entry 7). -/
def crcTable (n : Byte) : Word := crcRounds 8 (zext32 n)

/-- `step(a, b)` of R65, the fold of one byte into the accumulator (R64); the shift is logical. -/
def crcStep (a : Word) (b : Byte) : Word := crcTable (feedIndex a b) ^^^ (a >>> 8)

/-- The bit-serial form of the same step, bit 0 of the byte first (R67).  The machine uses `crcStep`. -/
def crcStepBitSerial (a : Word) (b : Byte) : Word := crcRounds 8 (a ^^^ zext32 b)

/-- The accumulator after a byte sequence, from `a` (R65). -/
def crcFold (a : Word) (bs : List Byte) : Word := bs.foldl crcStep a

/-- CRC_RES as a function of ACC: the complement the source applies at the end (R21). -/
def crcResult (acc : Word) : Word := acc ^^^ crcFinalXor

/-- The whole-buffer function CRC32 (R12, R65). -/
def crc32 (bs : List Byte) : Word := crcResult (crcFold crcInitialAcc bs)

/-! ### The GUID unit -/

/-- The index table P of PERM (R78). -/
def permIndex : Vector (Fin 16) 16 := #v[3, 2, 1, 0, 5, 4, 7, 6, 8, 9, 10, 11, 12, 13, 14, 15]

/-- PERM: `Y[j] = X[P[j]]` (R78). -/
def perm (x : Buffer) : Buffer := Vector.ofFn fun j => x[permIndex[j]]

/-! ### Reads and writes of the registers -/

/-- `ACC <- v` (R16). -/
def State.setAcc (s : State) (v : Word) : State := { s with acc := v }

/-- `GIN[i] <- b` (R17). -/
def State.setGin (s : State) (i : Index4) (b : Byte) : State :=
  { s with gin := s.gin.set (bufferIndex i).val b }

/-- `GOUT <- y`, all 16 bytes together (R18). -/
def State.setGout (s : State) (y : Buffer) : State := { s with gout := y }

/-- The word a port read of a register returns (R24, R30).  CMD and the reserved registers read as 0. -/
def readRegister (r : PortReg) (s : State) : Word :=
  match r with
  | .cmd => 0x00000000#32
  | .status => statusWord s.ill
  | .crcAcc => s.acc
  | .crcRes => crcResult s.acc
  | .ginW k => laneWord s.gin k
  | .goutW k => laneWord s.gout k
  | .reserved _ => 0x00000000#32

/-- Hand a word to the host as the value of its Read (R9). -/
def State.observe (s : State) (w : Word) : State := { s with reads := s.reads ++ [w] }

/-! ### The exception and the way back -/

/-- `raise IllegalCommand()` (R95): STATUS.ILL is set and nothing else changes.  The block saves no pc,
no cause and no word, and enters no handler (R94, R100). -/
def raiseIllegalCommand (s : State) : State := { s with ill := illAfterIllegal s.ill }

/-- The Reset transaction (R109): all four elements go to their reset values.  It is the only way back
to STATUS.ILL = 0 (R96, R101). -/
def resetBlock (s : State) : State :=
  { s with
    acc := crcInitialAcc
    gin := Vector.replicate 16 0x00#8
    gout := Vector.replicate 16 0x00#8
    ill := illAfterReset }

end Sys2Proof.Machine
end

