-- ==== Sys2Proof/Machine/Control.lean ====
section
/-! DEFINITION. The meaning of NOP (42_control.md R89).  The block has no control-transfer, memory or
system command (R91, R92, R93). -/

namespace Sys2Proof.Machine

/-- NOP: no state changes (R89). -/
def execNop (s : State) : Result := .next s

end Sys2Proof.Machine
end

