-- ==== Sys2Proof/Machine/Crc.lean ====
section
/-! DEFINITION. The meanings of CRC.INIT and CRC.FEED (40_crc.md R63, R64). -/

namespace Sys2Proof.Machine

/-- CRC.INIT: `ACC <- 0xFFFFFFFF`, whatever ACC holds (R63). -/
def execCrcInit (s : State) : Result := .next (s.setAcc crcInitialAcc)

/-- CRC.FEED b: `ACC <- T[(ACC XOR zext_32(b)) AND 0xFF] XOR (ACC >> 8)` (R64). -/
def execCrcFeed (b : Byte) (s : State) : Result := .next (s.setAcc (crcStep s.acc b))

end Sys2Proof.Machine
end

