-- ==== Sys2Proof/Machine/Guid.lean ====
section
/-! DEFINITION. The meanings of GUID.LD, GUID.DEC and GUID.ENC (41_guid.md R79, R80, R81). -/

namespace Sys2Proof.Machine

/-- GUID.LD i, b: `GIN[i] <- b` (R79). -/
def execGuidLd (i : Index4) (b : Byte) (s : State) : Result := .next (s.setGin i b)

/-- GUID.DEC: `GOUT[j] <- GIN[P[j]]` for all j together, with whatever GIN holds (R80, R85). -/
def execGuidDec (s : State) : Result := .next (s.setGout (perm s.gin))

/-- GUID.ENC: the same datapath as GUID.DEC, because PERM is its own inverse (R81, R82). -/
def execGuidEnc (s : State) : Result := .next (s.setGout (perm s.gin))

end Sys2Proof.Machine
end

