-- ==== Sys2Proof/Machine/Dispatch.lean ====
section
/-! DEFINITION. The dispatch of a decoded command to its meaning (42_control.md R90): one arm per
command. -/

namespace Sys2Proof.Machine

def exec (i : Instr) (s : State) : Host.Outcome State Fault Refusal :=
  match i with
  | .nop => Sys2Proof.Machine.execNop s
  | .crcInit => Sys2Proof.Machine.execCrcInit s
  | .crcFeed b => Sys2Proof.Machine.execCrcFeed b s
  | .guidLd idx b => Sys2Proof.Machine.execGuidLd idx b s
  | .guidDec => Sys2Proof.Machine.execGuidDec s
  | .guidEnc => Sys2Proof.Machine.execGuidEnc s

end Sys2Proof.Machine
end

