-- ==== Sys2Proof/Machine/Port.lean ====
section
/-! DEFINITION. The port: what each transaction of the host does (20_memory.md R30 to R32, R38,
42_control.md R90, 70_reset_and_hazards.md R109), and how requests come to stand before the block. -/

namespace Sys2Proof.Machine

/-- `execute(w)` of R90: an illegal word raises IllegalCommand, a legal one runs its command. -/
def execute (w : Word) (s : State) : Result :=
  match decode w with
  | .illegal _ => .next (raiseIllegalCommand s)
  | .command i => exec i s

/-- `Write(widx, data)` of R31: CMD executes the word, every other register ignores it. -/
def portWrite (widx : Index4) (data : Word) (s : State) : Result :=
  if widx = 0#4 then execute data s else .next s

/-- The word `Read(widx)` returns (R30, R32). -/
def portRead (widx : Index4) (s : State) : Word := readRegister (portReg widx) s

/-- One port transaction, whole (R39): a Read only hands its word to the host (R32). -/
def transact (t : Transaction) (s : State) : Result :=
  match t with
  | .write widx data => portWrite widx data s
  | .read widx => .next (s.observe (portRead widx s))
  | .reset => .next (resetBlock s)

/-- One request of the host.  A bus access that is not one whole aligned word is refused (R38, U5). -/
def serve (r : HostRequest) (s : State) : Result :=
  match r with
  | .port t => transact t s
  | .bus a =>
    match busTransaction a with
    | some t => transact t s
    | none => .refused .notAWholeAlignedWord

/-- The block meets its requests in the order the host issues them (R40).  With none left it waits: no
state changes (R8, R113; DEDUCED, log entry 3). -/
def serveNext (s : State) : Result :=
  match s.pending with
  | [] => .next s
  | r :: rest => serve r { s with pending := rest }

/-- The host issues transactions after those already issued (R40). -/
def State.issue (s : State) (ts : List Transaction) : State :=
  { s with pending := s.pending ++ ts.map .port }

/-- The host issues one transaction ahead of every other: the block meets it next. -/
def State.issueFirst (s : State) (t : Transaction) : State :=
  { s with pending := .port t :: s.pending }

/-- The transaction that pushes one command: `Write(0, word)` (R22, R59). -/
def command (i : Instr) : Transaction := .write 0#4 (encode i)

end Sys2Proof.Machine
end

