-- ==== Sys2Proof/Machine/Step.lean ====
section
/-! DEFINITION. One step: one host transaction (00_scope.md R8, 70_reset_and_hazards.md R119). -/

namespace Sys2Proof.Machine

/-- One step of the machine: the block meets the host's next request. -/
def step (s : State) : Host.Outcome State Fault Refusal := serveNext s

/-- `s` with a Write of the command word to CMD as the host's next transaction (R22: the host pushes
commands, the block fetches none; DESIGN CHOICE, log entry 4). -/
def State.withFetchWord (s : State) (nbits w : Nat) : State :=
  s.issueFirst (.write 0#4 (tableWord nbits w))

end Sys2Proof.Machine
end

