-- ==== Sys2Proof/Machine/Assembly.lean ====
section
/-! DEFINITION. The host-side assembly (30_encoding.md R59, R60): a way to write host transactions down.
The block sees only the transactions (R9, R60).  Lines as terms first, with their check and their
expansion, then the text form.  What R59 leaves open of the text form is log entry 12 (DESIGN CHOICE). -/

namespace Sys2Proof.Machine

/-- One line of assembly (R59, R60).  Operands are the numbers written, not yet checked against their
ranges: an operand out of range is an error and is never truncated. -/
inductive AsmLine where
  | nop
  | crcInit
  | crcFeed (b : Nat)
  | guidLd (i b : Nat)
  | guidDec
  | guidEnc
  /-- `CRC.BYTES b0, ..., bn-1`, n = 0 allowed. -/
  | crcBytes (bs : List Nat)
  /-- `CRC.STR "s"`, by the codes of its characters. -/
  | crcStr (codes : List Nat)
  /-- `CRC.ZEROS n`. -/
  | crcZeros (n : Nat)
  /-- `GUID.LOAD16 b0, ..., b15`. -/
  | guidLoad16 (bs : List Nat)
  /-- `WR widx, word`: a raw Write. -/
  | wr (widx word : Nat)
  /-- `RD name`, by the word index of the name. -/
  | rd (widx : Nat)
  /-- `RESET`. -/
  | reset
  deriving DecidableEq, Repr

/-- An operand `b` is in range (R59). -/
def byteInRange (b : Nat) : Bool := b < 256

/-- Every operand of the line is in its range (R59, R60); CRC.STR takes ASCII codes. -/
def AsmLine.inRange : AsmLine → Bool
  | .nop => true
  | .crcInit => true
  | .crcFeed b => byteInRange b
  | .guidLd i b => i < 16 && byteInRange b
  | .guidDec => true
  | .guidEnc => true
  | .crcBytes bs => bs.all byteInRange
  | .crcStr codes => codes.all (· < 128)
  | .crcZeros _ => true
  | .guidLoad16 bs => bs.length == 16 && bs.all byteInRange
  | .wr widx word => widx < 16 && word < 2 ^ 32
  | .rd widx => widx < 16
  | .reset => true

/-- One CRC.FEED for each byte, in order (R60). -/
def feedAll (bs : List Nat) : List Transaction := bs.map fun b => command (.crcFeed (BitVec.ofNat 8 b))

/-- GUID.LD of each byte to the index where it stands, from index `i` on (R60). -/
def loadAll : Nat → List Nat → List Transaction
  | _, [] => []
  | i, b :: bs => command (.guidLd (BitVec.ofNat 4 i) (BitVec.ofNat 8 b)) :: loadAll (i + 1) bs

/-- The transactions a line whose operands are in range stands for (R59, R60). -/
def AsmLine.expand : AsmLine → List Transaction
  | .nop => [command .nop]
  | .crcInit => [command .crcInit]
  | .crcFeed b => feedAll [b]
  | .guidLd i b => loadAll i [b]
  | .guidDec => [command .guidDec]
  | .guidEnc => [command .guidEnc]
  | .crcBytes bs => feedAll bs
  | .crcStr codes => feedAll codes
  | .crcZeros n => feedAll (List.replicate n 0)
  | .guidLoad16 bs => loadAll 0 bs
  | .wr widx word => [.write (BitVec.ofNat 4 widx) (BitVec.ofNat 32 word)]
  | .rd widx => [.read (BitVec.ofNat 4 widx)]
  | .reset => [.reset]

/-- The transactions of one line, none where an operand is out of range: an assembly error (R59). -/
def assembleLine (l : AsmLine) : Option (List Transaction) := if l.inRange then some l.expand else none

/-- The transactions of a program, none where any line is an error. -/
def assembleLines : List AsmLine → Option (List Transaction)
  | [] => some []
  | l :: ls => do
    let ts ← assembleLine l
    let rest ← assembleLines ls
    return ts ++ rest

/-! ### The text form -/

/-- A lexical unit of a line. -/
inductive Token where
  /-- A mnemonic, a register name or a number. -/
  | name (cs : List Char)
  /-- A character literal. -/
  | char (c : Char)
  /-- A string literal. -/
  | str (cs : List Char)
  | comma
  deriving DecidableEq, Repr

/-- Where the lexer stands in a line; the characters of an open unit are newest first. -/
inductive LexMode where
  | plain (cs : List Char)
  | quote
  | quoted (c : Char)
  | str (cs : List Char)
  deriving DecidableEq, Repr

/-- Close an open name. -/
def closeName (cs : List Char) (out : List Token) : List Token :=
  if cs.isEmpty then out else .name cs.reverse :: out

/-- The double quote character. -/
def doubleQuote : Char := Char.ofNat 34

/-- The tokens of a line, none where a literal is not closed.  A comment begins with `;` outside
literals (R59).  A comma, a quote or a `;` ends an open name, so no blank need stand between a mnemonic and
a literal, beside a comma or before a comment, and any number may: R59 only shows forms with a blank
(DESIGN CHOICE, log entry 12). -/
def lexLine : List Char → LexMode → List Token → Option (List Token)
  | [], .plain cs, out => some (closeName cs out).reverse
  | [], .quote, _ => none
  | [], .quoted _, _ => none
  | [], .str _, _ => none
  | c :: rest, .plain cs, out =>
    if c = ';' then some (closeName cs out).reverse
    else if c = ' ' ∨ c = '\t' then lexLine rest (.plain []) (closeName cs out)
    else if c = ',' then lexLine rest (.plain []) (.comma :: closeName cs out)
    else if c = '\'' then lexLine rest .quote (closeName cs out)
    else if c = doubleQuote then lexLine rest (.str []) (closeName cs out)
    else lexLine rest (.plain (c :: cs)) out
  | c :: rest, .quote, out => lexLine rest (.quoted c) out
  | c :: rest, .quoted d, out => if c = '\'' then lexLine rest (.plain []) (.char d :: out) else none
  | c :: rest, .str cs, out =>
    if c = doubleQuote then lexLine rest (.plain []) (.str cs.reverse :: out)
    else lexLine rest (.str (c :: cs)) out

/-- Operands separated by commas. -/
def operands : List Token → Option (List Token)
  | [] => some []
  | [.comma] => none
  | [t] => some [t]
  | .comma :: _ => none
  | _ :: .comma :: [] => none
  | t :: .comma :: rest => (operands rest).map (t :: ·)
  | _ => none

/-- The value of a digit in the bases 10 and 16. -/
def digitValue (base : Nat) (c : Char) : Option Nat :=
  let n := c.toNat
  let v := if 48 ≤ n ∧ n ≤ 57 then n - 48
    else if 65 ≤ n ∧ n ≤ 70 then n - 55
    else if 97 ≤ n ∧ n ≤ 102 then n - 87
    else 16
  if v < base then some v else none

/-- The value of digits in a base, most significant first, after the value `acc`. -/
def digitsValue (base : Nat) : Nat → List Char → Option Nat
  | acc, [] => some acc
  | acc, c :: cs => (digitValue base c).bind fun d => digitsValue base (acc * base + d) cs

/-- A decimal number. -/
def decimalToken : Token → Option Nat
  | .name (c :: cs) => digitsValue 10 0 (c :: cs)
  | .name [] => none
  | .char _ => none
  | .str _ => none
  | .comma => none

/-- A decimal or hex number. -/
def numberToken : Token → Option Nat
  | .name ('0' :: 'x' :: c :: cs) => digitsValue 16 0 (c :: cs)
  | t => decimalToken t

/-- A byte operand `b`: decimal, hex, or a character literal standing for its code (R59). -/
def byteToken : Token → Option Nat
  | .char c => if c.toNat < 128 then some c.toNat else none
  | t => numberToken t

/-- The name of a register (R30).  A reserved register has none. -/
def regName : PortReg → List Char
  | .cmd => "CMD".toList
  | .status => "STATUS".toList
  | .crcAcc => "CRC_ACC".toList
  | .crcRes => "CRC_RES".toList
  | .ginW k => "GIN_W".toList ++ [Char.ofNat (48 + k.val)]
  | .goutW k => "GOUT_W".toList ++ [Char.ofNat (48 + k.val)]
  | .reserved _ => []

/-- The word index a register operand names: a name of R30, or the number of a word index, as program
P6 writes the reserved ones. -/
def registerToken (t : Token) : Option Nat :=
  match decimalToken t with
  | some n => some n
  | none =>
    match t with
    | .name cs => (portMap.toList.map regName).idxOf? cs
    | .char _ => none
    | .str _ => none
    | .comma => none

/-- The list of values, none if any is none. -/
def allSome : List (Option Nat) → Option (List Nat)
  | [] => some []
  | none :: _ => none
  | some n :: rest => (allSome rest).map (n :: ·)

/-- A mnemonic with its operands (R59, R60), none where they do not fit.  The `n` of `CRC.ZEROS n` is a
decimal number only: R59 gives number forms for `b` and `i`, and R60 none for `n` (DESIGN CHOICE, log entry
12). -/
def asmLine (m : List Char) (ops : List Token) : Option AsmLine :=
  match ops with
  | [] =>
    if m = "NOP".toList then some .nop
    else if m = "CRC.INIT".toList then some .crcInit
    else if m = "GUID.DEC".toList then some .guidDec
    else if m = "GUID.ENC".toList then some .guidEnc
    else if m = "RESET".toList then some .reset
    else if m = "CRC.BYTES".toList then some (.crcBytes [])
    else none
  | a :: more =>
    if m = "CRC.BYTES".toList then (allSome (ops.map byteToken)).map .crcBytes
    else if m = "GUID.LOAD16".toList then (allSome (ops.map byteToken)).map .guidLoad16
    else match more with
      | [] =>
        if m = "CRC.FEED".toList then (byteToken a).map .crcFeed
        else if m = "CRC.ZEROS".toList then (decimalToken a).map .crcZeros
        else if m = "RD".toList then (registerToken a).map .rd
        else if m = "CRC.STR".toList then
          match a with
          | .str cs => some (.crcStr (cs.map Char.toNat))
          | .name _ => none
          | .char _ => none
          | .comma => none
        else none
      | [b] =>
        if m = "GUID.LD".toList then
          (decimalToken a).bind fun i => (byteToken b).map fun v => .guidLd i v
        else if m = "WR".toList then
          (numberToken a).bind fun w => (numberToken b).map fun v => .wr w v
        else none
      | _ :: _ :: _ => none

/-- One line of text: no line for a blank one, none where it is an error. -/
def parseLine (cs : List Char) : Option (List AsmLine) :=
  (lexLine cs (.plain []) []).bind fun ts =>
    match ts with
    | [] => some []
    | .name m :: rest => (operands rest).bind fun ops => (asmLine m ops).map ([·])
    | .char _ :: _ => none
    | .str _ :: _ => none
    | .comma :: _ => none

/-- The lines of a text, the characters of the open line newest first. -/
def splitLines : List Char → List Char → List (List Char)
  | [], cur => [cur.reverse]
  | c :: rest, cur => if c = '\n' then cur.reverse :: splitLines rest [] else splitLines rest (c :: cur)

/-- The lines of assembly of a text. -/
def parseLines : List (List Char) → Option (List AsmLine)
  | [] => some []
  | l :: ls => (parseLine l).bind fun a => (parseLines ls).map (a ++ ·)

/-- The host transactions a program text stands for (R59, R60), none where it holds an error. -/
def assemble (text : String) : Option (List Transaction) :=
  (parseLines (splitLines text.toList [])).bind assembleLines

end Sys2Proof.Machine
end

