-- ==== Sys2Proof/Machine/HostUsage.lean ====
section
/-! DEFINITION. Host software around the block (40_crc.md R72 to R76, 41_guid.md R86 to R88,
70_reset_and_hazards.md R111, R112): which transactions a host issues to check a GPT header, to check a
partition array and to transcode a GUID, and what it makes of the words it reads.  None of this is
behaviour of the block (R6); `step` does not use it. -/

namespace Sys2Proof.Machine

/-! ### The host's storage image (R11, R28) -/

/-- The image: byte `a` stands at position `a`. -/
abbrev Image := List Byte

/-- The `n` bytes from `a` on, none where the image ends before the last of them.  Zero bytes are read
wherever `a` lies (R76; log entry 15). -/
def Image.bytes (image : Image) (a n : Nat) : Option (List Byte) :=
  if n = 0 ∨ a + n ≤ image.length then some ((image.drop a).take n) else none

/-- The value of bytes in little-endian order (R36). -/
def leValue : List Byte → Nat
  | [] => 0
  | b :: bs => b.toNat + 256 * leValue bs

/-- The little-endian field of `n` bytes at `a`. -/
def Image.field (image : Image) (a n : Nat) : Option Nat := (image.bytes a n).map leValue

/-- The image with bit `bit` of the byte at `a` flipped (R76). -/
def Image.flipBit (image : Image) (a : Nat) (bit : Fin 8) : Image :=
  image.modify a (· ^^^ (1#8 <<< bit.val))

/-! ### Checksums (R72 to R76, R111) -/

/-- The CRC.FEEDs of a byte sequence, in order (R34). -/
def feedBytes (bs : List Byte) : List Transaction := bs.map fun b => command (.crcFeed b)

/-- One checksum computation: CRC.INIT, the bytes, and the read of CRC_RES (R66, R111). -/
def checksumTransactions (bs : List Byte) : List Transaction :=
  command .crcInit :: feedBytes bs ++ [.read 3#4]

/-- The first byte of the primary header: LBA 1 (R72, N17; DEDUCED, log entry 13). -/
def headerStart (blockSize : Nat) : Nat := blockSize * 1

/-- The checksum field, bytes 16 to 19, replaced by zeros (R73). -/
def zeroChecksumField (raw : List Byte) : List Byte :=
  raw.take 16 ++ ((raw.drop 16).take 4).map (fun _ => 0x00#8) ++ raw.drop 20

/-- The bytes the header checksum covers: `header_size_bytes` bytes of the image, which is the field at
offset 12 and not block_size, with the checksum field zeroed (R72, R73; DEDUCED where
R73 does not reach, log entry 15). -/
def headerChecksumBytes (blockSize : Nat) (image : Image) : Option (List Byte) := do
  let size ← image.field (headerStart blockSize + 12) 4
  let raw ← image.bytes (headerStart blockSize) size
  return zeroChecksumField raw

/-- Where the partition array stands: its first byte, the number of entries and their size in bytes. -/
structure PartArray where
  start : Nat
  count : Nat
  size : Nat
  deriving DecidableEq, Repr

/-- The partition array of the header's own fields: it starts at `block_size * lba_start_of_part_entries`
and has `num_part_entries` entries of `single_part_entry_size` bytes (R74; field offsets and widths DEDUCED,
log entry 15). -/
def partArray (blockSize : Nat) (image : Image) : Option PartArray := do
  let lba ← image.field (headerStart blockSize + 72) 8
  let count ← image.field (headerStart blockSize + 80) 4
  let size ← image.field (headerStart blockSize + 84) 4
  return ⟨blockSize * lba, count, size⟩

/-- The bytes the partition-array checksum covers, all entries, packed with no gaps (R74).  No entries are
zero bytes, wherever the array would start (R76). -/
def arrayChecksumBytes (blockSize : Nat) (image : Image) : Option (List Byte) := do
  let array ← partArray blockSize image
  image.bytes array.start (array.count * array.size)

/-- The stored header checksum, a little-endian u32 at offset 16 (R36, R75). -/
def storedHeaderCrc (blockSize : Nat) (image : Image) : Option Word :=
  (image.field (headerStart blockSize + 16) 4).map (BitVec.ofNat 32)

/-- The stored partition-array checksum, a little-endian u32 at offset 88 (R36, R75). -/
def storedArrayCrc (blockSize : Nat) (image : Image) : Option Word :=
  (image.field (headerStart blockSize + 88) 4).map (BitVec.ofNat 32)

/-- The host's comparison of the word read from CRC_RES with the stored field (R75). -/
def checksumOk (crcRes stored : Word) : Bool := crcRes == stored

/-- header_crc_ok: the outcome of the header check, none where the image does not hold what it reads
(R75). -/
def headerCrcOk (blockSize : Nat) (image : Image) : Option Bool := do
  let covered ← headerChecksumBytes blockSize image
  let stored ← storedHeaderCrc blockSize image
  return checksumOk (crc32 covered) stored

/-- part_array_crc_ok: the outcome of the partition-array check (R75, R76). -/
def partArrayCrcOk (blockSize : Nat) (image : Image) : Option Bool := do
  let covered ← arrayChecksumBytes blockSize image
  let stored ← storedArrayCrc blockSize image
  return checksumOk (crc32 covered) stored

/-- The transactions of the two checks, each with its own CRC.INIT; both run regardless of each other's
outcome (R75, R111).  That the header check comes first, and that neither check is issued where the image
lacks the range of one, is the model's choice: the spec says neither (DESIGN CHOICE, log entry 16). -/
def bothChecks (blockSize : Nat) (image : Image) : Option (List Transaction) := do
  let header ← headerChecksumBytes blockSize image
  let array ← arrayChecksumBytes blockSize image
  return checksumTransactions header ++ checksumTransactions array

/-! ### GUIDs (R86, R87, R88, R112) -/

/-- The GUID.LDs of all 16 bytes of a GUID, which a host issues before a transcoding; in
ascending order here, which R112 makes indifferent. -/
def loadGuid (x : Buffer) : List Transaction :=
  (List.finRange 16).map fun j => command (.guidLd (BitVec.ofFin j) x[j])

/-- The reads of GOUT_W0 to GOUT_W3 (R117). -/
def readGout : List Transaction := [.read 8#4, .read 9#4, .read 10#4, .read 11#4]

/-- The transactions of one decoding: all 16 bytes of the on-disk form, GUID.DEC, and the reads of GOUT
(R77, R87, R112). -/
def decodeGuid (onDisk : Buffer) : List Transaction := loadGuid onDisk ++ command .guidDec :: readGout

/-- The four bytes of a port word, in the order of the buffer they came from (R33). -/
def wordBytes (w : Word) : List Byte :=
  [w.extractLsb' 0 8, w.extractLsb' 8 8, w.extractLsb' 16 8, w.extractLsb' 24 8]

/-- The 16 bytes at `a`, none where the image ends before the last of them. -/
def Image.guid (image : Image) (a : Nat) : Option Buffer :=
  (image.bytes a 16).bind fun bs => if h : bs.length = 16 then some ⟨bs.toArray, by simpa using h⟩ else none

/-- Offset of disk_guid in the header (R87). -/
def diskGuidOffset : Nat := 56

/-- Offset of part_type_guid in a partition entry (R87). -/
def partTypeGuidOffset : Nat := 0

/-- Offset of unique_uuid in a partition entry (R87). -/
def uniqueUuidOffset : Nat := 16

/-- The first byte of partition entry `i`, counted from 0: the entries are packed with no gaps (R74).  There
are `num_part_entries` of them, and no entry beyond (log entry 18). -/
def partEntryStart (blockSize : Nat) (image : Image) (i : Nat) : Option Nat := do
  let array ← partArray blockSize image
  if i < array.count then some (array.start + i * array.size) else none

/-- disk_guid in its on-disk form (R87). -/
def diskGuid (blockSize : Nat) (image : Image) : Option Buffer :=
  image.guid (headerStart blockSize + diskGuidOffset)

/-- part_type_guid of entry `i` in its on-disk form (R87). -/
def partTypeGuid (blockSize : Nat) (image : Image) (i : Nat) : Option Buffer := do
  let entry ← partEntryStart blockSize image i
  image.guid (entry + partTypeGuidOffset)

/-- unique_uuid of entry `i` in its on-disk form (R87). -/
def uniqueUuid (blockSize : Nat) (image : Image) (i : Nat) : Option Buffer := do
  let entry ← partEntryStart blockSize image i
  image.guid (entry + uniqueUuidOffset)

/-- The transactions by which a host gets the canonical form of disk_guid (R87). -/
def decodeDiskGuid (blockSize : Nat) (image : Image) : Option (List Transaction) :=
  (diskGuid blockSize image).map decodeGuid

/-- The transactions by which a host gets the canonical forms of the two GUIDs of entry `i`,
part_type_guid first (R87).  That order, and that neither GUID is decoded where the image ends inside one of
them, is the model's choice: the spec says neither (DESIGN CHOICE, log entry 18). -/
def decodeEntryGuids (blockSize : Nat) (image : Image) (i : Nat) : Option (List Transaction) := do
  let partType ← partTypeGuid blockSize image i
  let unique ← uniqueUuid blockSize image i
  return decodeGuid partType ++ decodeGuid unique

/-- A hex digit. -/
def hexDigit (upper : Bool) (n : Nat) : Char :=
  Char.ofNat (if n < 10 then 48 + n else if upper then 55 + n else 87 + n)

/-- A byte as two hex digits, high nibble first (R86). -/
def hexByte (upper : Bool) (b : Byte) : List Char :=
  [hexDigit upper (b.toNat / 16), hexDigit upper (b.toNat % 16)]

/-- The 8-4-4-4-12 string of 16 canonical bytes, in the given letter case (R86). -/
def renderGuidIn (upper : Bool) (y : Buffer) : List Char :=
  let digits := fun (start count : Nat) => ((y.toList.drop start).take count).flatMap (hexByte upper)
  digits 0 4 ++ '-' :: digits 4 2 ++ '-' :: digits 6 2 ++ '-' :: digits 8 2 ++ '-' :: digits 10 6

/-- The string in the letter case the host happens to use, which the spec does not fix (R86, U8;
log entry 14). -/
def renderGuid (y : Buffer) : List Char := renderGuidIn Config.guidUpperCase y

end Sys2Proof.Machine
end

