-- ==== Sys2Proof/Safety.lean ====
section
/-! DEFINITION. The words claims are written in: a run of steps, what a list of transactions says of the
block that served it (the bytes fed since the last start of a CRC, the last byte loaded to an index,
whether an illegal word was written since the last Reset), and a clean host stream, which is what a host
relies on when it trusts its results (70_reset_and_hazards.md R118). -/

namespace Sys2Proof.Machine

/-- `n` steps, stopping at the first that gives no next state. -/
def runSteps : Nat → State → Result
  | 0, s => .next s
  | n + 1, s =>
    match step s with
    | .next t => runSteps n t
    | .fault f => .fault f
    | .refused r => .refused r

/-- The state in which `ts` are the host's next transactions, before `s`'s own requests. -/
def State.facing (s : State) (ts : List Transaction) : State :=
  { s with pending := ts.map .port ++ s.pending }

/-- The command a transaction makes the block perform: that of a legal word written to CMD. -/
def performed : Transaction → Option Instr
  | .write widx data => if widx = 0#4 then decodeCommand data else none
  | .read _ => none
  | .reset => none

/-- The transaction writes an illegal word to CMD (R94). -/
def writesIllegal : Transaction → Bool
  | .write widx data => widx == 0#4 && isIllegal data
  | .read _ => false
  | .reset => false

/-- The transaction is Reset. -/
def isReset : Transaction → Bool
  | .reset => true
  | .write _ _ => false
  | .read _ => false

/-- The transaction starts a CRC computation: CRC.INIT, or Reset (R26, R66). -/
def startsCrc (t : Transaction) : Bool := isReset t || performed t == some .crcInit

/-- The transaction writes GOUT from GIN: GUID.DEC or GUID.ENC (R18). -/
def transcodes (t : Transaction) : Bool := performed t == some .guidDec || performed t == some .guidEnc

/-- The byte a command feeds the CRC unit: only CRC.FEED feeds one (R64). -/
def feedOperand : Instr → Option Byte
  | .crcFeed b => some b
  | .nop => none
  | .crcInit => none
  | .guidLd _ _ => none
  | .guidDec => none
  | .guidEnc => none

/-- The byte a command loads into GIN[i]: only GUID.LD with IDX = i loads one (R17, R79). -/
def loadOperand (i : Index4) : Instr → Option Byte
  | .guidLd k b => if k = i then some b else none
  | .nop => none
  | .crcInit => none
  | .crcFeed _ => none
  | .guidDec => none
  | .guidEnc => none

/-- The byte a transaction feeds the CRC unit. -/
def fedByte (t : Transaction) : Option Byte := (performed t).bind feedOperand

/-- The byte a transaction loads into GIN[i]. -/
def loadedByte (i : Index4) (t : Transaction) : Option Byte := (performed t).bind (loadOperand i)

/-- The transactions after the last that satisfies `p`, or all of them if none does. -/
def sinceLast (p : Transaction → Bool) (ts : List Transaction) : List Transaction :=
  (ts.reverse.takeWhile fun t => !p t).reverse

/-- The bytes fed since the last CRC.INIT or Reset, in order (R66, R111). -/
def bytesFed (ts : List Transaction) : List Byte := (sinceLast startsCrc ts).filterMap fedByte

/-- An illegal word has been written to CMD since the last Reset (R24, R96). -/
def illegalSeen (ts : List Transaction) : Bool := (sinceLast isReset ts).any writesIllegal

/-- The byte loaded last to index `i` since the last Reset, 0x00 if none was (R79, R85, R109). -/
def lastLoaded (i : Index4) (ts : List Transaction) : Byte :=
  (((sinceLast isReset ts).filterMap (loadedByte i)).getLast?).getD 0x00#8

/-- The transaction a host request puts at the port, none for a bus access that is refused (R38). -/
def HostRequest.transaction : HostRequest → Option Transaction
  | .port t => some t
  | .bus a => busTransaction a

/-- The transactions the next step serves: that of the host's oldest request, or none (log entries 1, 3). -/
def State.servesNext (s : State) : List Transaction := (s.pending.head?.bind HostRequest.transaction).toList

/-- The block holds what the transactions `ts`, served since the first Reset, say: ACC is the fold of the
bytes fed since the last start of a computation, ILL whether an illegal word came since the last Reset,
GIN[i] the byte loaded last to i, and GOUT the transcoding of GIN as it stood at the last GUID.DEC or
GUID.ENC since the last Reset, or zero (R63, R64, R79 to R81, R85, R95, R96, R109). -/
def State.MeetsHistory (s : State) (ts : List Transaction) : Prop :=
  s.acc = crcFold 0xFFFFFFFF#32 (bytesFed ts) ∧
  s.ill = illegalSeen ts ∧
  (∀ i : Index4, s.gin[bufferIndex i] = lastLoaded i ts) ∧
  ((sinceLast isReset ts).any transcodes = false → s.gout = Vector.replicate 16 0#8) ∧
  (∀ (before after : List Transaction) (x : Transaction), ts = before ++ x :: after → transcodes x = true →
    (∀ y ∈ after, isReset y = false ∧ transcodes y = false) →
    ∀ j : Fin 16, s.gout[j] = lastLoaded (BitVec.ofFin permIndex[j]) before)

/-- A request that raises nothing and that the model refuses nothing of: a port transaction, or a bus
access that is one, which writes no illegal word to CMD. -/
def HostRequest.clean : HostRequest → Bool
  | .port t => !writesIllegal t
  | .bus a =>
    match busTransaction a with
    | some t => !writesIllegal t
    | none => false

/-- The host has had no illegal word reported and is about to write none (R118). -/
def State.Clean (s : State) : Prop := s.ill = false ∧ ∀ r ∈ s.pending, r.clean = true

end Sys2Proof.Machine
end

