-- ==== Sys2Proof/Certificates/Slice0/Obligations.lean ====
section
/-! DEFINITION. The statements for the provers.  Each docstring names the rule of the spec it
formalises.  `R<n>` are the numbered rules of spec/. -/

open Sys2Proof Sys2Proof.Machine

/-! ### Encoding (30_encoding.md) -/

/-- R58: decode after encode is the identity on commands, and encode after decode on legal words.  The
spec derives R58 from R47, R48 and R53. -/
def Obligations.EncodeAndDecodeAreInverse : Prop :=
  (∀ i : Instr, encode i = opcodeOf i ++ 0#12 ++ idxOf i ++ immOf i ∧ decode (encode i) = .command i) ∧
  (∀ (w : Word) (i : Instr), decode w = .command i → encode i = w)

/-- The words of R48 and R59, one per command, with every operand at every value. -/
def Obligations.CommandWordsOfTheTable : Prop :=
  encode .nop = 0x00000000#32 ∧
  encode .crcInit = 0x01000000#32 ∧
  (∀ b : Byte, encode (.crcFeed b) = 0x02000000#32 ||| b.setWidth 32) ∧
  (∀ (i : Index4) (b : Byte), encode (.guidLd i b) = 0x10000000#32 ||| (i.setWidth 32 <<< 8) ||| b.setWidth 32) ∧
  encode .guidDec = 0x11000000#32 ∧
  encode .guidEnc = 0x12000000#32

/-- R51 and R52, with the reserved opcodes of R55: a word is illegal exactly when RSV is not 0, OP is
reserved, or a field the command does not use is not 0; and the independent check of format C agrees. -/
def Obligations.IllegalWordsAreExactlyThese : Prop :=
  ∀ w : Word,
    (isIllegal w = true ↔
      (w.extractLsb' 12 12 ≠ 0#12 ∨
       w.extractLsb' 24 8 ∉ [0x00#8, 0x01#8, 0x02#8, 0x10#8, 0x11#8, 0x12#8] ∨
       (w.extractLsb' 24 8 ≠ 0x10#8 ∧ w.extractLsb' 8 4 ≠ 0#4) ∨
       (w.extractLsb' 24 8 ≠ 0x02#8 ∧ w.extractLsb' 24 8 ≠ 0x10#8 ∧ w.extractLsb' 0 8 ≠ 0#8))) ∧
    isIllegal w = !(splitFields w).wellFormed

/-- R54's census, which the spec derives: 1 + 1 + 256 + 4096 + 1 + 1 = 4356 words are legal, the other
4294962940 are not, and writing one of those to CMD raises IllegalCommand and does nothing else. -/
def Obligations.LegalWordCensus : Prop :=
  Nat.card {w : Word // decode w = .command .nop} = 1 ∧
  Nat.card {w : Word // decode w = .command .crcInit} = 1 ∧
  Nat.card {w : Word // ∃ b, decode w = .command (.crcFeed b)} = 256 ∧
  Nat.card {w : Word // ∃ i b, decode w = .command (.guidLd i b)} = 4096 ∧
  Nat.card {w : Word // decode w = .command .guidDec} = 1 ∧
  Nat.card {w : Word // decode w = .command .guidEnc} = 1 ∧
  Nat.card {w : Word // isIllegal w = false} = 4356 ∧
  Nat.card {w : Word // isIllegal w = true} = 4294962940 ∧
  ∀ (w : Word) (s : State), isIllegal w = true → portWrite 0#4 w s = .next { s with ill := true }

/-- Words written out from R47 and R48, and illegal words of section 2.5 of 95_test_vectors.md. -/
def Obligations.WrittenOutWordsDecode : Prop :=
  decode 0b00000000000000000000000000000000#32 = .command .nop ∧
  decode 0b00000001000000000000000000000000#32 = .command .crcInit ∧
  decode 0b00000010000000000000000000110001#32 = .command (.crcFeed 0x31#8) ∧
  decode 0b00010000000000000000001100111011#32 = .command (.guidLd 3#4 0x3B#8) ∧
  decode 0b00010000000000000000111101101101#32 = .command (.guidLd 15#4 0x6D#8) ∧
  decode 0b00010001000000000000000000000000#32 = .command .guidDec ∧
  decode 0b00010010000000000000000000000000#32 = .command .guidEnc ∧
  isIllegal 0x00000001#32 = true ∧ isIllegal 0x00000100#32 = true ∧ isIllegal 0x01000001#32 = true ∧
  isIllegal 0x01800000#32 = true ∧ isIllegal 0x02000100#32 = true ∧ isIllegal 0x02001000#32 = true ∧
  isIllegal 0x03000000#32 = true ∧ isIllegal 0x10001000#32 = true ∧ isIllegal 0x12000F00#32 = true ∧
  isIllegal 0xFF000000#32 = true

/-! ### The step and the port (20_memory.md, 42_control.md R90) -/

/-- R90: executing a word performs exactly the command it decodes to, or, if it decodes to Illegal, raises
IllegalCommand. -/
def Obligations.ExecutePerformsTheDecodedCommand : Prop :=
  (∀ (s : State) (w : Word) (i : Instr), decode w = .command i → execute w s = exec i s) ∧
  (∀ (s : State) (w : Word) (e : IllegalWord), decode w = .illegal e → execute w s = .next (raiseIllegalCommand s))

/-- A step runs the decoded instruction: where the host's oldest request is a port transaction, the step is
that transaction, off the host's list; a Write to CMD of a word that decodes to a command is that command
(R31, R90).  That a request is taken off the list is the model's (log entry 1). -/
def Obligations.StepRunsTheDecodedCommand : Prop :=
  (∀ (s : State) (x : Transaction) (rest : List HostRequest),
    step { s with pending := .port x :: rest } = transact x { s with pending := rest }) ∧
  (∀ (s : State) (w : Word) (rest : List HostRequest) (i : Instr), decode w = .command i →
    step { s with pending := .port (.write 0#4 w) :: rest } = exec i { s with pending := rest })

/-- A command placed as the host's next Write runs in the next step (log entry 4; R22, R31). -/
def Obligations.FetchedWordRunsNext : Prop :=
  ∀ (s : State) (i : Instr), decodeTableWord 32 (encode i).toNat = some i ∧
    step (s.withFetchWord 32 (encode i).toNat) = exec i s

/-- R31: a Write to CMD executes the word; a Write to any other register does nothing at all. -/
def Obligations.WriteExecutesOnlyAtCmd : Prop :=
  ∀ (s : State) (widx : Index4) (w : Word),
    (widx = 0#4 → transact (.write widx w) s = execute w s) ∧
    (widx ≠ 0#4 → transact (.write widx w) s = .next s)

/-- R32: a Read returns the word of R30's table, handed to the host after those read before (R9), and
changes no state of the block. -/
def Obligations.ReadReturnsTheMappedWord : Prop :=
  ∀ (s : State) (widx : Index4), ∃ v : Word,
    transact (.read widx) s = .next { s with reads := s.reads ++ [v] } ∧
    (widx = 0#4 → v = 0#32) ∧
    (widx = 1#4 → v = if s.ill then 1#32 else 0#32) ∧
    (widx = 2#4 → v = s.acc) ∧
    (widx = 3#4 → v = s.acc ^^^ 0xFFFFFFFF#32) ∧
    (widx = 4#4 → v = s.gin[3] ++ s.gin[2] ++ s.gin[1] ++ s.gin[0]) ∧
    (widx = 5#4 → v = s.gin[7] ++ s.gin[6] ++ s.gin[5] ++ s.gin[4]) ∧
    (widx = 6#4 → v = s.gin[11] ++ s.gin[10] ++ s.gin[9] ++ s.gin[8]) ∧
    (widx = 7#4 → v = s.gin[15] ++ s.gin[14] ++ s.gin[13] ++ s.gin[12]) ∧
    (widx = 8#4 → v = s.gout[3] ++ s.gout[2] ++ s.gout[1] ++ s.gout[0]) ∧
    (widx = 9#4 → v = s.gout[7] ++ s.gout[6] ++ s.gout[5] ++ s.gout[4]) ∧
    (widx = 10#4 → v = s.gout[11] ++ s.gout[10] ++ s.gout[9] ++ s.gout[8]) ∧
    (widx = 11#4 → v = s.gout[15] ++ s.gout[14] ++ s.gout[13] ++ s.gout[12]) ∧
    (12 ≤ widx.toNat → v = 0#32)

/-- The lanes of R33: bits [8j+7:8j] of GIN_Wk and GOUT_Wk are byte 4k+j of the buffer. -/
def Obligations.BufferLanesAreLittleEndian : Prop :=
  ∀ (s : State) (k j : Fin 4),
    (portRead (4#4 + BitVec.ofNat 4 k.val) s).extractLsb' (8 * j.val) 8 = s.gin[4 * k.val + j.val] ∧
    (portRead (8#4 + BitVec.ofNat 4 k.val) s).extractLsb' (8 * j.val) 8 = s.gout[4 * k.val + j.val]

/-- R39: a Read is idempotent: two Reads of one register with only Reads between them return the same
word, and the block is as it was. -/
def Obligations.ReadsAreIdempotent : Prop :=
  ∀ (s : State) (widx : Index4) (between : List Index4), ∃ (t : State) (v : Word) (vs : List Word),
    runSteps (between.length + 2) (s.facing (.read widx :: between.map .read ++ [.read widx])) = .next t ∧
    vs.length = between.length ∧ t = { s with reads := s.reads ++ (v :: vs ++ [v]) }

/-- R38's refusal, in the shape log entry 6 gives a bus access: an access that is narrow, byte-enabled or
misaligned is refused; a whole aligned word at offset 4*WIDX is the port transaction at WIDX (R29). -/
def Obligations.OnlyWholeAlignedWordsReachThePort : Prop :=
  ∀ (s : State) (rest : List HostRequest),
    (∀ a : BusAccess, (a.size ≠ .word ∨ a.enables ≠ 0xF#4 ∨ a.offset.toNat % 4 ≠ 0) →
      step { s with pending := .bus a :: rest } = .refused .notAWholeAlignedWord) ∧
    (∀ (offset : BitVec 6) (widx : Index4), offset.toNat = 4 * widx.toNat →
      (∀ w : Word, step { s with pending := .bus ⟨offset, .word, 0xF#4, .write w⟩ :: rest } =
        step { s with pending := .port (.write widx w) :: rest }) ∧
      step { s with pending := .bus ⟨offset, .word, 0xF#4, .read⟩ :: rest } =
        step { s with pending := .port (.read widx) :: rest })

/-- The model's choice of log entry 3: with no request of the host left, the block waits and nothing
changes. -/
def Obligations.BlockWaitsForTheHost : Prop :=
  ∀ s : State, s.pending = [] → step s = .next s

/-- What any step may do: a step that hands a word to the host changes nothing of the block (R32, R39).
That it takes exactly the host's oldest request off the model's list is log entry 1, and with the list
empty it takes none, log entry 3: both are the model's, not the spec's. -/
def Obligations.StepMeetsOneRequest : Prop :=
  ∀ s t : State, step s = .next t →
    t.pending = s.pending.tail ∧
    (t.reads = s.reads ∨
      ∃ v : Word, t.reads = s.reads ++ [v] ∧ t.acc = s.acc ∧ t.gin = s.gin ∧ t.gout = s.gout ∧ t.ill = s.ill)

/-! ### The illegal command and Reset (60_exceptions.md, 70_reset_and_hazards.md) -/

/-- R95: an illegal word sets STATUS.ILL and changes nothing else. -/
def Obligations.IllegalWordOnlySetsIll : Prop :=
  ∀ (s : State) (w : Word), isIllegal w = true → execute w s = .next { s with ill := true }

/-- R96: once set, ILL stays 1 until Reset; over transactions without a Reset it is 1 exactly if it was
1 before or one of them wrote an illegal word, so 0 says that none did. -/
def Obligations.IllIsStickyUntilReset : Prop :=
  (∀ s t : State, step s = .next t → s.ill = true → t.ill = true ∨ s.pending.head? = some (.port .reset)) ∧
  (∀ (s : State) (ts : List Transaction), ts.any isReset = false → ∃ t : State,
    runSteps ts.length (s.facing ts) = .next t ∧ t.ill = (s.ill || ts.any writesIllegal))

/-- The first two sentences of R97: a command does the same whatever ILL is. -/
def Obligations.IllDoesNotChangeCommands : Prop :=
  ∀ (i : Instr) (s t : State) (f : Bool), exec i s = .next t →
    exec i { s with ill := f } = .next { t with ill := f }

/-- Reset sets all four elements to the values of R109, from any state of the block.  That the host's own
lists stay is the model's choice: the requests to come are log entry 1's list and the words read log entry
2's, which a Reset does not clear. -/
def Obligations.ResetSetsEveryElement : Prop :=
  ∀ s : State, transact .reset s =
    .next { s with acc := 0xFFFFFFFF#32, gin := Vector.replicate 16 0#8, gout := Vector.replicate 16 0#8, ill := false }

/-- R27 and R110: whatever the elements hold after power-up, the first Reset gives the reset state.  The
power-up values are free (log entry 5). -/
def Obligations.FirstResetForgetsPowerUp : Prop := transact .reset State.powerUp = .next State.reset

/-- The reset values of R26. -/
def Obligations.ResetStateValues : Prop :=
  State.reset.acc = 0xFFFFFFFF#32 ∧
  (∀ j : Fin 16, State.reset.gin[j] = 0#8) ∧
  (∀ j : Fin 16, State.reset.gout[j] = 0#8) ∧
  State.reset.ill = false ∧
  exec .crcInit State.reset = .next State.reset ∧
  portRead 3#4 State.reset = 0#32 ∧
  crc32 [] = 0#32

/-! ### The commands (40_crc.md, 41_guid.md, 42_control.md R89) -/

/-- R89: NOP does nothing, its word is 0x00000000, and a word with OP = 0x00 and any other bit set is
illegal. -/
def Obligations.NopChangesNothing : Prop :=
  encode .nop = 0x00000000#32 ∧
  (∀ w : Word, w.extractLsb' 24 8 = 0x00#8 → w ≠ 0x00000000#32 → isIllegal w = true) ∧
  (∀ s : State, exec .nop s = .next s)

/-- R63: CRC.INIT sets ACC to 0xFFFFFFFF whatever it holds and changes nothing else; twice acts like once;
CRC_RES then reads 0; a word with OP = 0x01 and any other bit set is not CRC.INIT but illegal. -/
def Obligations.CrcInitSetsTheAccumulator : Prop :=
  encode .crcInit = 0x01000000#32 ∧
  (∀ w : Word, w.extractLsb' 24 8 = 0x01#8 → w ≠ 0x01000000#32 → isIllegal w = true) ∧
  (∀ s : State, exec .crcInit s = .next { s with acc := 0xFFFFFFFF#32 }) ∧
  (∀ s t : State, exec .crcInit s = .next t → exec .crcInit t = .next t ∧ portRead 3#4 t = 0x00000000#32)

/-- R64: CRC.FEED b gives ACC = T[(ACC XOR zext_32(b)) AND 0xFF] XOR (ACC >> 8) and changes nothing else,
with the corner cases and the example of the rule. -/
def Obligations.CrcFeedFoldsOneByte : Prop :=
  (∀ b : Byte, encode (.crcFeed b) = 0x02000000#32 ||| b.setWidth 32) ∧
  (∀ w : Word, w.extractLsb' 24 8 = 0x02#8 →
    if w.extractLsb' 8 16 = 0#16 then decode w = .command (.crcFeed (w.extractLsb' 0 8)) else isIllegal w = true) ∧
  (∀ (b : Byte) (s : State), exec (.crcFeed b) s =
    .next { s with acc := crcTable (((s.acc ^^^ b.setWidth 32) &&& 0x000000FF#32).setWidth 8) ^^^ (s.acc >>> 8) }) ∧
  (∀ (b : Byte) (s : State), s.acc.setWidth 8 = b → exec (.crcFeed b) s = .next { s with acc := s.acc >>> 8 }) ∧
  (∀ s : State, exec (.crcFeed 0x00#8) { s with acc := 0xFFFFFFFF#32 } = .next { s with acc := 0x2DFD1072#32 }) ∧
  (∀ s : State, exec (.crcFeed 0x00#8) { s with acc := 0x00000000#32 } = .next { s with acc := 0x00000000#32 }) ∧
  (∀ s : State, exec (.crcFeed 0xFF#8) { s with acc := 0xFFFFFFFF#32 } = .next { s with acc := 0x00FFFFFF#32 }) ∧
  (∀ s : State, exec (.crcFeed 0x31#8) { s with acc := 0xFFFFFFFF#32 } = .next { s with acc := 0x7C231048#32 })

/-- R79: GUID.LD i, b writes b to GIN[i] and changes nothing else; the last of two loads to one index
stays; every i and b is legal, and a word with OP = 0x10 is illegal exactly if RSV is not 0. -/
def Obligations.GuidLdWritesOneByte : Prop :=
  (∀ (i : Index4) (b : Byte), encode (.guidLd i b) = 0x10000000#32 ||| (i.setWidth 32 <<< 8) ||| b.setWidth 32) ∧
  (∀ w : Word, w.extractLsb' 24 8 = 0x10#8 →
    if w.extractLsb' 12 12 = 0#12 then decode w = .command (.guidLd (w.extractLsb' 8 4) (w.extractLsb' 0 8))
    else isIllegal w = true) ∧
  (∀ (i : Index4) (b : Byte) (s : State), ∃ g : Buffer, exec (.guidLd i b) s = .next { s with gin := g } ∧
    ∀ j : Fin 16, g[j] = if j.val = i.toNat then b else s.gin[j]) ∧
  (∀ (i : Index4) (b c : Byte) (s t : State), exec (.guidLd i b) s = .next t →
    exec (.guidLd i c) t = exec (.guidLd i c) s) ∧
  encode (.guidLd 3#4 0x3B#8) = 0x1000033B#32

/-- R80: GUID.DEC writes GOUT[j] = GIN[P[j]] for all j from whatever GIN holds, and changes nothing else;
twice gives the same GOUT; the all-zero GIN gives the all-zero GOUT; the example; the illegal words. -/
def Obligations.GuidDecTranscodes : Prop :=
  encode .guidDec = 0x11000000#32 ∧
  (∀ w : Word, w.extractLsb' 24 8 = 0x11#8 → w ≠ 0x11000000#32 → isIllegal w = true) ∧
  (∀ s : State, exec .guidDec s = .next { s with gout :=
    #v[s.gin[3], s.gin[2], s.gin[1], s.gin[0], s.gin[5], s.gin[4], s.gin[7], s.gin[6],
       s.gin[8], s.gin[9], s.gin[10], s.gin[11], s.gin[12], s.gin[13], s.gin[14], s.gin[15]] }) ∧
  (∀ s t : State, exec .guidDec s = .next t → exec .guidDec t = .next t) ∧
  (∀ s : State, s.gin = Vector.replicate 16 0#8 → exec .guidDec s = .next { s with gout := Vector.replicate 16 0#8 }) ∧
  (∀ s : State, s.gin = #v[0x12, 0xdb, 0x7c, 0x3b, 0xe4, 0x7f, 0x25, 0x46, 0x9c, 0x00, 0xb3, 0xae, 0x6d, 0xc7, 0x24, 0x6d] →
    exec .guidDec s = .next { s with gout :=
      #v[0x3b, 0x7c, 0xdb, 0x12, 0x7f, 0xe4, 0x46, 0x25, 0x9c, 0x00, 0xb3, 0xae, 0x6d, 0xc7, 0x24, 0x6d] })

/-- R81: GUID.ENC has the datapath of GUID.DEC under a word of its own. -/
def Obligations.GuidEncTranscodes : Prop :=
  encode .guidEnc = 0x12000000#32 ∧
  (∀ w : Word, w.extractLsb' 24 8 = 0x12#8 → w ≠ 0x12000000#32 → isIllegal w = true) ∧
  (∀ s : State, exec .guidEnc s = .next { s with gout :=
    #v[s.gin[3], s.gin[2], s.gin[1], s.gin[0], s.gin[5], s.gin[4], s.gin[7], s.gin[6],
       s.gin[8], s.gin[9], s.gin[10], s.gin[11], s.gin[12], s.gin[13], s.gin[14], s.gin[15]] }) ∧
  (∀ s t : State, exec .guidEnc s = .next t → exec .guidEnc t = .next t) ∧
  (∀ s : State, s.gin = Vector.replicate 16 0#8 → exec .guidEnc s = .next { s with gout := Vector.replicate 16 0#8 }) ∧
  (∀ s : State, s.gin = #v[0x3b, 0x7c, 0xdb, 0x12, 0x7f, 0xe4, 0x46, 0x25, 0x9c, 0x00, 0xb3, 0xae, 0x6d, 0xc7, 0x24, 0x6d] →
    exec .guidEnc s = .next { s with gout :=
      #v[0x12, 0xdb, 0x7c, 0x3b, 0xe4, 0x7f, 0x25, 0x46, 0x9c, 0x00, 0xb3, 0xae, 0x6d, 0xc7, 0x24, 0x6d] })

/-- No legal command raises an exception (R94): every command completes in every state and leaves ILL. -/
def Obligations.EveryCommandCompletes : Prop :=
  ∀ (i : Instr) (s : State), ∃ t : State, exec i s = .next t ∧ t.ill = s.ill

/-- The frame of each command: what it does not write stays (R16 to R19, R23).  Only CRC.INIT and CRC.FEED
write ACC, only GUID.LD i writes GIN and only GIN[i], only GUID.DEC and GUID.ENC write GOUT, none writes
ILL, and none touches the host's lists. -/
def Obligations.CommandFrame : Prop :=
  ∀ (i : Instr) (s t : State), exec i s = .next t →
    t.ill = s.ill ∧ t.pending = s.pending ∧ t.reads = s.reads ∧
    (i ≠ .crcInit → (∀ b, i ≠ .crcFeed b) → t.acc = s.acc) ∧
    (∀ j : Index4, (∀ b, i ≠ .guidLd j b) → t.gin[bufferIndex j] = s.gin[bufferIndex j]) ∧
    (i ≠ .guidDec → i ≠ .guidEnc → t.gout = s.gout)

/-- Who writes each element, over every transaction (R16 to R19): ACC changes only by CRC.INIT, CRC.FEED
or Reset, GIN[i] only by GUID.LD i or Reset, GOUT only by GUID.DEC, GUID.ENC or Reset, and ILL only by an
illegal word, which sets it, or Reset, which clears it. -/
def Obligations.WhoWritesEachElement : Prop :=
  ∀ (s t : State) (x : Transaction), step (s.facing [x]) = .next t →
    (t.acc ≠ s.acc → isReset x = true ∨ performed x = some .crcInit ∨ ∃ b, performed x = some (.crcFeed b)) ∧
    (∀ i : Index4, t.gin[bufferIndex i] ≠ s.gin[bufferIndex i] →
      isReset x = true ∨ ∃ b, performed x = some (.guidLd i b)) ∧
    (t.gout ≠ s.gout → isReset x = true ∨ transcodes x = true) ∧
    (t.ill ≠ s.ill → (isReset x = true ∧ t.ill = false) ∨ (writesIllegal x = true ∧ t.ill = true))

/-! ### The CRC-32 function (40_crc.md) -/

/-- R65: the whole-buffer function, byte by byte, with the two values the source gives. -/
def Obligations.WholeBufferFunction : Prop :=
  (∀ a : Word, crcFold a [] = a) ∧
  (∀ (a : Word) (b : Byte) (bs : List Byte), crcFold a (bs ++ [b]) =
    crcTable (((crcFold a bs ^^^ b.setWidth 32) &&& 0xFF#32).setWidth 8) ^^^ (crcFold a bs >>> 8)) ∧
  (∀ bs : List Byte, crc32 bs = crcFold 0xFFFFFFFF#32 bs ^^^ 0xFFFFFFFF#32) ∧
  crc32 [0x31, 0x32, 0x33, 0x34, 0x35, 0x36, 0x37, 0x38, 0x39] = 0xCBF43926#32 ∧
  crc32 [] = 0x00000000#32

/-- The table of R62 and its properties there: the construction, T[0] = 0, T[0x80] = the polynomial,
linear over XOR, all entries distinct.  The construction is general knowledge, not the source's (log
entry 7). -/
def Obligations.TableOfTheReflectedPolynomial : Prop :=
  (∀ n : Byte, crcTable n =
    (fun c : Word => if c.getLsbD 0 then (c >>> 1) ^^^ 0xEDB88320#32 else c >>> 1)^[8] (n.setWidth 32)) ∧
  crcTable 0x00#8 = 0#32 ∧
  crcTable 0x80#8 = 0xEDB88320#32 ∧
  (∀ a b : Byte, crcTable (a ^^^ b) = crcTable a ^^^ crcTable b) ∧
  Function.Injective crcTable

/-- R67: the bit-serial form of CRC.FEED gives the same ACC for every ACC and every b.  The spec marks this
as general knowledge and checks it by script. -/
def Obligations.BitSerialStepAgrees : Prop :=
  ∀ (b : Byte) (s : State), exec (.crcFeed b) s =
    .next { s with acc :=
      (fun c : Word => if c.getLsbD 0 then (c >>> 1) ^^^ 0xEDB88320#32 else c >>> 1)^[8] (s.acc ^^^ b.setWidth 32) }

/-- R68's last law, which the spec derives: for a fixed byte, CRC.FEED is a bijection of ACC. -/
def Obligations.FeedIsBijective : Prop :=
  ∀ b : Byte, Function.Bijective fun a : Word => crcStep a b

/-- R70: feeding a buffer and then its CRC-32 in little-endian order leaves ACC = 0xDEBB20E3, whatever the
buffer.  The spec marks the claim for all buffers as general knowledge. -/
def Obligations.ChecksumResidue : Prop :=
  ∀ (bs : List Byte) (c : Word), c = crc32 bs →
    crcFold 0xFFFFFFFF#32
      (bs ++ [c.extractLsb' 0 8, c.extractLsb' 8 8, c.extractLsb' 16 8, c.extractLsb' 24 8]) = 0xDEBB20E3#32

/-! ### Runs of transactions (40_crc.md R66, R69; 10_state.md R25) -/

/-- R66: after CRC.INIT or Reset, with no other start of a computation, a read of CRC_RES returns the
CRC32 of the bytes fed, whatever else is interleaved.  The spec derives it. -/
def Obligations.InterleavedFeedsGiveTheChecksum : Prop :=
  ∀ (s : State) (start : Transaction) (ts : List Transaction),
    (start = .write 0#4 0x01000000#32 ∨ start = .reset) → (∀ x ∈ ts, startsCrc x = false) →
    ∃ t : State, runSteps (ts.length + 2) (s.facing (start :: ts ++ [.read 3#4])) = .next t ∧
      t.pending = s.pending ∧ t.reads.getLast? = some (crc32 (ts.filterMap fedByte))

/-- R69: CRC_RES read in the middle of a computation is the CRC32 of the bytes so far, and the
computation goes on to the CRC32 of them all.  The spec derives it. -/
def Obligations.MidStreamReadsDoNotDisturb : Prop :=
  ∀ (s : State) (xs ys : List Transaction),
    (∀ x ∈ xs, startsCrc x = false) → (∀ y ∈ ys, startsCrc y = false) →
    ∃ t u : State,
      runSteps (xs.length + 2) (s.facing (command .crcInit :: xs ++ [.read 3#4])) = .next t ∧
      t.reads.getLast? = some (crc32 (xs.filterMap fedByte)) ∧
      runSteps (ys.length + 1) (t.facing (ys ++ [.read 3#4])) = .next u ∧
      u.reads.getLast? = some (crc32 (xs.filterMap fedByte ++ ys.filterMap fedByte))

/-- What the block holds after Reset and any transactions, said from the transactions alone: ACC is the
fold of the bytes fed since the last CRC.INIT or Reset, ILL says whether an illegal word came since the
last Reset, GIN[i] is the byte loaded last to i since then, and GOUT is the transcoding of GIN as it stood
at the last GUID.DEC or GUID.ENC since then, or zero (R63, R64, R79 to R81, R85, R95, R96, R109). -/
def Obligations.HistoryDeterminesTheBlock : Prop :=
  ∀ (s : State) (ts : List Transaction), ∃ t : State,
    runSteps (ts.length + 1) (s.facing (.reset :: ts)) = .next t ∧
    t.pending = s.pending ∧
    t.acc = crcFold 0xFFFFFFFF#32 (bytesFed ts) ∧
    t.ill = illegalSeen ts ∧
    (∀ i : Index4, t.gin[bufferIndex i] = lastLoaded i ts) ∧
    ((sinceLast isReset ts).any transcodes = false → t.gout = Vector.replicate 16 0#8) ∧
    (∀ (before after : List Transaction) (x : Transaction), ts = before ++ x :: after → transcodes x = true →
      (∀ y ∈ after, isReset y = false ∧ transcodes y = false) →
      ∀ j : Fin 16, t.gout[j] = lastLoaded (BitVec.ofFin permIndex[j]) before)

/-- R25's last sentence: ACC, GIN, GOUT and STATUS.ILL determine every future observation: two states
that agree on them, before the same requests, return the same words from then on, whatever was read
before. -/
def Obligations.FourElementsDetermineObservations : Prop :=
  ∀ (n : Nat) (s s' : State), s.acc = s'.acc → s.gin = s'.gin → s.gout = s'.gout → s.ill = s'.ill →
    s.pending = s'.pending →
    (∀ t : State, runSteps n s = .next t → ∃ new : List Word, t.reads = s.reads ++ new ∧
      runSteps n s' = .next { t with reads := s'.reads ++ new }) ∧
    (∀ r : Refusal, runSteps n s = .refused r → runSteps n s' = .refused r)

/-- A clean host stream stays clean and never stops the model: with ILL = 0 and only legal words and whole
aligned accesses to come, every step gives a next state, with ILL still 0 (R94, R96, R118). -/
def Obligations.CleanStreamStaysClean : Prop :=
  ∀ s : State, s.Clean → ∃ t : State, step s = .next t ∧ t.Clean

/-- Reset begins a clean stream. -/
def Obligations.ResetStateIsClean : Prop := State.reset.Clean

/-! ### The GUID transcoder (41_guid.md) -/

/-- R82, which the spec derives: PERM is its own inverse, P[P[j]] = j, and GUID.DEC and GUID.ENC give the
same GOUT. -/
def Obligations.PermIsAnInvolution : Prop :=
  (∀ j : Fin 16, permIndex[permIndex[j]] = j) ∧
  (∀ x : Buffer, perm (perm x) = x) ∧
  (∀ s : State, exec .guidDec s = .next { s with gout := perm s.gin } ∧
    exec .guidEnc s = .next { s with gout := perm s.gin })

/-- The round trip of R82 through the block: load 16 bytes, transcode, load GOUT back, transcode again, in
either direction each time: GOUT is the 16 bytes. -/
def Obligations.GuidRoundTripThroughTheBlock : Prop :=
  ∀ (s : State) (x : Buffer) (i k : Instr), i ∈ [Instr.guidDec, .guidEnc] → k ∈ [Instr.guidDec, .guidEnc] →
    ∃ t u : State,
      runSteps 17 (s.facing (loadGuid x ++ [command i])) = .next t ∧ t.gin = x ∧ t.gout = perm x ∧
      runSteps 17 (t.facing (loadGuid t.gout ++ [command k])) = .next u ∧ u.gout = x

/-- R83, which the spec derives: after GUID.DEC, GOUT_W0 is the byte reversal of GIN_W0, each half of
GOUT_W1 is the byte reversal of that half of GIN_W1, and GOUT_W2 and GOUT_W3 are GIN_W2 and GIN_W3. -/
def Obligations.CanonicalFormIsBigEndian : Prop :=
  ∀ s t : State, exec .guidDec s = .next t →
    (∀ j : Fin 4, (portRead 8#4 t).extractLsb' (8 * j.val) 8 = (portRead 4#4 s).extractLsb' (8 * (3 - j.val)) 8) ∧
    (∀ h j : Fin 2, (portRead 9#4 t).extractLsb' (16 * h.val + 8 * j.val) 8 =
      (portRead 5#4 s).extractLsb' (16 * h.val + 8 * (1 - j.val)) 8) ∧
    portRead 10#4 t = portRead 6#4 s ∧ portRead 11#4 t = portRead 7#4 s

/-- R84: GOUT[j] depends on GIN[P[j]] alone. -/
def Obligations.LanesDoNotMix : Prop :=
  ∀ (s s' t t' : State) (j : Fin 16), s.gin[permIndex[j]] = s'.gin[permIndex[j]] →
    exec .guidDec s = .next t → exec .guidDec s' = .next t' → t.gout[j] = t'.gout[j]

/-- R112's last sentence: the order of the 16 loads does not matter: whatever it is, GIN is the 16 bytes,
and nothing else of the block changes. -/
def Obligations.LoadOrderDoesNotMatter : Prop :=
  ∀ (s : State) (x : Buffer) (order : List (Fin 16)), order.Perm (List.finRange 16) →
    runSteps 16 (s.facing (order.map fun j => command (.guidLd (BitVec.ofFin j) x[j]))) = .next { s with gin := x }

/-! ### Assembly and host usage (30_encoding.md R59, R60; 40_crc.md R72 to R76) -/

/-- The word column of R59 with its operand ranges: an operand out of range is an error, never truncated. -/
def Obligations.AssemblyWords : Prop :=
  assembleLine .nop = some [.write 0#4 0x00000000#32] ∧
  assembleLine .crcInit = some [.write 0#4 0x01000000#32] ∧
  (∀ b : Nat, assembleLine (.crcFeed b) =
    if b < 256 then some [.write 0#4 (0x02000000#32 ||| BitVec.ofNat 32 b)] else none) ∧
  (∀ i b : Nat, assembleLine (.guidLd i b) =
    if i < 16 ∧ b < 256 then some [.write 0#4 (0x10000000#32 ||| BitVec.ofNat 32 i <<< 8 ||| BitVec.ofNat 32 b)] else none) ∧
  assembleLine .guidDec = some [.write 0#4 0x11000000#32] ∧
  assembleLine .guidEnc = some [.write 0#4 0x12000000#32]

/-- R60: each pseudo-instruction is its expansion, in order, and has no word of its own. -/
def Obligations.PseudoInstructionsExpand : Prop :=
  (∀ bs : List Nat, (AsmLine.crcBytes bs).expand = bs.flatMap fun b => (AsmLine.crcFeed b).expand) ∧
  (∀ cs : List Nat, (AsmLine.crcStr cs).expand = cs.flatMap fun c => (AsmLine.crcFeed c).expand) ∧
  (∀ n : Nat, (AsmLine.crcZeros n).expand = (List.replicate n (AsmLine.crcFeed 0).expand).flatten) ∧
  (∀ b : Fin 16 → Nat, (AsmLine.guidLoad16 ((List.finRange 16).map b)).expand =
    (List.finRange 16).flatMap fun j => (AsmLine.guidLd j.val (b j)).expand)

/-- The header checksum of R72 and R73 through the block: the bytes fed are the header_size_bytes bytes of
the image from the header's start on, those at offsets 16 to 19 replaced by 0x00, and the read returns
their CRC32.  The start at LBA 1 is log entry 13 (DEDUCED: the spec's reading of N17 and U9), and that a
header_size_bytes below 20 replaces only those of the four bytes it covers is log entry 15 (DEDUCED: R73's
list always feeds four zeros). -/
def Obligations.HeaderChecksumThroughTheBlock : Prop :=
  ∀ (blockSize : Nat) (image : Image) (bs : List Byte), headerChecksumBytes blockSize image = some bs →
    image.field (blockSize + 12) 4 = some bs.length ∧
    (∀ k : Nat, k < bs.length → bs[k]? = if 16 ≤ k ∧ k < 20 then some 0x00#8 else image[blockSize + k]?) ∧
    (∀ s : State, ∃ t : State, runSteps (bs.length + 2) (s.facing (checksumTransactions bs)) = .next t ∧
      t.reads = s.reads ++ [crc32 bs])

/-- The partition-array checksum of R74, with R76's first consequence: no entries give the checksum 0.  The
offsets and widths of the three header fields, 72 of 8 bytes, 80 of 4 and 84 of 4, are log entry 15
(DEDUCED from program P3), and the header's start is log entry 13 (DEDUCED). -/
def Obligations.ArrayChecksumThroughTheBlock : Prop :=
  ∀ (blockSize : Nat) (image : Image) (bs : List Byte), arrayChecksumBytes blockSize image = some bs →
    (∃ lba count size : Nat, image.field (blockSize + 72) 8 = some lba ∧
      image.field (blockSize + 80) 4 = some count ∧ image.field (blockSize + 84) 4 = some size ∧
      bs.length = count * size ∧ (∀ k : Nat, k < bs.length → bs[k]? = image[blockSize * lba + k]?) ∧
      (count = 0 → ∀ stored : Word, checksumOk (crc32 bs) stored = (stored == 0#32))) ∧
    (∀ s : State, ∃ t : State, runSteps (bs.length + 2) (s.facing (checksumTransactions bs)) = .next t ∧
      t.reads = s.reads ++ [crc32 bs])

/-! ### Further statements of the host checks (40_crc.md R74 to R76) and of the step -/

/-- R76's first consequence, wherever the array would start and whatever the size of an entry: with
num_part_entries = 0 the check feeds no byte, the read returns 0, and part_array_crc_ok is
(crc32_of_part_array == 0).  Field offsets and the read of zero bytes: log entry 15; the header's start:
log entry 13. -/
def Obligations.EmptyPartitionArrayCheck : Prop :=
  ∀ (blockSize : Nat) (image : Image), blockSize + 92 ≤ image.length →
    image.field (blockSize + 80) 4 = some 0 →
    arrayChecksumBytes blockSize image = some [] ∧
    (∃ stored : Nat, image.field (blockSize + 88) 4 = some stored ∧
      partArrayCrcOk blockSize image = some (stored == 0)) ∧
    (∀ s : State, ∃ t : State, runSteps 2 (s.facing (checksumTransactions [])) = .next t ∧
      t.reads = s.reads ++ [0x00000000#32])

/-- R76's second consequence: where header_crc_ok is true, flipping any other single bit of the covered
header_size_bytes bytes makes it false, the stored checksum's own bits included; a flip beyond them, from
offset 20 on, leaves it.  A flip in header_size_bytes itself, offsets 12 to 15, moves the range, so for
those bits the claim is about the bytes covered before the flip (log entry 17).  The spec marks the
detection of every single-bit error as general knowledge.  The header's start is log entry 13. -/
def Obligations.SingleBitFlipsFailTheHeaderCheck : Prop :=
  ∀ (blockSize size : Nat) (image : Image), image.field (blockSize + 12) 4 = some size →
    headerCrcOk blockSize image = some true →
    ∀ (k : Nat) (bit : Fin 8),
      (k < size → k < 12 ∨ 16 ≤ k → headerCrcOk blockSize (image.flipBit (blockSize + k) bit) = some false) ∧
      (12 ≤ k → k < 16 → k < size → ∃ (raw : List Byte) (stored : Word),
        (image.flipBit (blockSize + k) bit).bytes blockSize size = some raw ∧
        storedHeaderCrc blockSize (image.flipBit (blockSize + k) bit) = some stored ∧
        checksumOk (crc32 (zeroChecksumField raw)) stored = false) ∧
      (size ≤ k → 20 ≤ k → headerCrcOk blockSize (image.flipBit (blockSize + k) bit) = some true)

/-- R75 and R111: the two checks are two computations, each with its own CRC.INIT, and both run whatever
either gives: from any state the host reads the CRC32 of the header's bytes and that of the array's, and
compares each with its own stored field.  That the header comes first, and that both ranges must be in the
image, is the model's choice (log entry 16). -/
def Obligations.BothChecksRunWhateverEitherGives : Prop :=
  ∀ (blockSize : Nat) (image : Image) (ts : List Transaction), bothChecks blockSize image = some ts →
    ∃ header array : List Byte,
      headerChecksumBytes blockSize image = some header ∧ arrayChecksumBytes blockSize image = some array ∧
      (∀ s : State, ∃ t : State, runSteps ts.length (s.facing ts) = .next t ∧
        t.reads = s.reads ++ [crc32 header, crc32 array]) ∧
      (∀ stored : Word, storedHeaderCrc blockSize image = some stored →
        headerCrcOk blockSize image = some (crc32 header == stored)) ∧
      (∀ stored : Word, storedArrayCrc blockSize image = some stored →
        partArrayCrcOk blockSize image = some (crc32 array == stored))

/-- The invariant behind R66 and R85 that every step keeps: if the block holds what the transactions served
so far say, then after any step it holds what they say with the transaction that step served.  For ACC: it
is the fold of the bytes fed since the last start of a computation.  The step's choice of transaction is
log entries 1 and 3. -/
def Obligations.StepKeepsTheHistory : Prop :=
  ∀ (s t : State) (ts : List Transaction), s.MeetsHistory ts → step s = .next t →
    t.MeetsHistory (ts ++ s.servesNext)

/-- The reset state holds what no transaction says: the values of R26. -/
def Obligations.ResetStateMeetsTheEmptyHistory : Prop := State.reset.MeetsHistory []

/-- Where R87 puts the GUIDs in the image: disk_guid is the 16 bytes at header offset 56, part_type_guid and
unique_uuid of entry i are those at offsets 0 and 16 of the entry, and an index beyond num_part_entries has
none.  The header's start is log entry 13, the array's fields log entry 15, the entries' places log entry
18. -/
def Obligations.GuidsStandWhereTheLayoutSays : Prop :=
  ∀ (blockSize : Nat) (image : Image),
    (∀ x : Buffer, diskGuid blockSize image = some x ↔ ∀ j : Fin 16, image[blockSize + 56 + j.val]? = some x[j]) ∧
    ∀ lba count size : Nat, image.field (blockSize + 72) 8 = some lba →
      image.field (blockSize + 80) 4 = some count → image.field (blockSize + 84) 4 = some size →
      (∀ (i : Nat) (x : Buffer), i < count →
        (partTypeGuid blockSize image i = some x ↔
          ∀ j : Fin 16, image[blockSize * lba + i * size + j.val]? = some x[j]) ∧
        (uniqueUuid blockSize image i = some x ↔
          ∀ j : Fin 16, image[blockSize * lba + i * size + 16 + j.val]? = some x[j])) ∧
      (∀ i : Nat, count ≤ i → partTypeGuid blockSize image i = none ∧ uniqueUuid blockSize image i = none)

/-- R87's last sentence through the block: from any state, the host's loads of an on-disk GUID, GUID.DEC and
the reads of GOUT give its canonical form: GOUT is PERM of the 16 bytes, and the bytes of the four words
read, in order, are GOUT.  The host issues exactly these for the disk_guid it took from the image, and for
part_type_guid and then unique_uuid of an entry (that order, and that it issues both or neither, is log
entry 18). -/
def Obligations.ImageGuidsAreDecodedThroughTheBlock : Prop :=
  (∀ (s : State) (x : Buffer), ∃ (t : State) (words : List Word),
    runSteps 21 (s.facing (decodeGuid x)) = .next t ∧
    t.gin = x ∧ t.gout = perm x ∧ t.acc = s.acc ∧ t.ill = s.ill ∧ words.length = 4 ∧
    t.reads = s.reads ++ words ∧ words.flatMap wordBytes = (perm x).toList) ∧
  (∀ (blockSize : Nat) (image : Image) (ts : List Transaction), decodeDiskGuid blockSize image = some ts →
    ∃ x : Buffer, diskGuid blockSize image = some x ∧ ts = decodeGuid x) ∧
  (∀ (blockSize : Nat) (image : Image) (i : Nat) (ts : List Transaction),
    decodeEntryGuids blockSize image i = some ts →
    ∃ x y : Buffer, partTypeGuid blockSize image i = some x ∧ uniqueUuid blockSize image i = some y ∧
      ts = decodeGuid x ++ decodeGuid y)

/-- R88: the header checksum takes disk_guid in its on-disk form: the bytes fed for offsets 56 to 71 are the
16 bytes of the image that the host also decodes, not their canonical form.  The header's start is log entry
13. -/
def Obligations.HeaderChecksumTakesTheOnDiskGuid : Prop :=
  ∀ (blockSize : Nat) (image : Image) (covered : List Byte) (x : Buffer),
    headerChecksumBytes blockSize image = some covered → diskGuid blockSize image = some x →
    ∀ j : Fin 16, 56 + j.val < covered.length → covered[56 + j.val]? = some x[j]
end

