-- ==== Sys2Proof/Laws/State.lean ====
section
/-! SUPPORT. One lemma per field per update of the state, each true by unfolding the update. -/

namespace Sys2Proof.Machine

variable (s : State) (v : Word) (i : Index4) (b : Byte) (y : Buffer)

@[simp] theorem State.setAcc_acc : (s.setAcc v).acc = v := rfl
@[simp] theorem State.setAcc_gin : (s.setAcc v).gin = s.gin := rfl
@[simp] theorem State.setAcc_gout : (s.setAcc v).gout = s.gout := rfl
@[simp] theorem State.setAcc_ill : (s.setAcc v).ill = s.ill := rfl
@[simp] theorem State.setAcc_pending : (s.setAcc v).pending = s.pending := rfl
@[simp] theorem State.setAcc_reads : (s.setAcc v).reads = s.reads := rfl

@[simp] theorem State.setGin_acc : (s.setGin i b).acc = s.acc := rfl
@[simp] theorem State.setGin_gin : (s.setGin i b).gin = s.gin.set (bufferIndex i).val b := rfl
@[simp] theorem State.setGin_gout : (s.setGin i b).gout = s.gout := rfl
@[simp] theorem State.setGin_ill : (s.setGin i b).ill = s.ill := rfl
@[simp] theorem State.setGin_pending : (s.setGin i b).pending = s.pending := rfl
@[simp] theorem State.setGin_reads : (s.setGin i b).reads = s.reads := rfl

@[simp] theorem State.setGout_acc : (s.setGout y).acc = s.acc := rfl
@[simp] theorem State.setGout_gin : (s.setGout y).gin = s.gin := rfl
@[simp] theorem State.setGout_gout : (s.setGout y).gout = y := rfl
@[simp] theorem State.setGout_ill : (s.setGout y).ill = s.ill := rfl
@[simp] theorem State.setGout_pending : (s.setGout y).pending = s.pending := rfl
@[simp] theorem State.setGout_reads : (s.setGout y).reads = s.reads := rfl

@[simp] theorem State.observe_acc : (s.observe v).acc = s.acc := rfl
@[simp] theorem State.observe_gin : (s.observe v).gin = s.gin := rfl
@[simp] theorem State.observe_gout : (s.observe v).gout = s.gout := rfl
@[simp] theorem State.observe_ill : (s.observe v).ill = s.ill := rfl
@[simp] theorem State.observe_pending : (s.observe v).pending = s.pending := rfl
@[simp] theorem State.observe_reads : (s.observe v).reads = s.reads ++ [v] := rfl

@[simp] theorem raiseIllegalCommand_acc : (raiseIllegalCommand s).acc = s.acc := rfl
@[simp] theorem raiseIllegalCommand_gin : (raiseIllegalCommand s).gin = s.gin := rfl
@[simp] theorem raiseIllegalCommand_gout : (raiseIllegalCommand s).gout = s.gout := rfl
@[simp] theorem raiseIllegalCommand_ill : (raiseIllegalCommand s).ill = true := rfl
@[simp] theorem raiseIllegalCommand_pending : (raiseIllegalCommand s).pending = s.pending := rfl
@[simp] theorem raiseIllegalCommand_reads : (raiseIllegalCommand s).reads = s.reads := rfl

@[simp] theorem resetBlock_acc : (resetBlock s).acc = crcInitialAcc := rfl
@[simp] theorem resetBlock_gin : (resetBlock s).gin = Vector.replicate 16 0x00#8 := rfl
@[simp] theorem resetBlock_gout : (resetBlock s).gout = Vector.replicate 16 0x00#8 := rfl
@[simp] theorem resetBlock_ill : (resetBlock s).ill = false := rfl
@[simp] theorem resetBlock_pending : (resetBlock s).pending = s.pending := rfl
@[simp] theorem resetBlock_reads : (resetBlock s).reads = s.reads := rfl

end Sys2Proof.Machine
end

