-- ==== Sys2Proof/Laws/Ops.lean ====
section
/-! SUPPORT. What the shared operations of Operands.lean, Ops.lean and Port.lean do, once each, for the
proofs to cite. -/

namespace Sys2Proof.Machine

/-! ### The CRC unit -/

@[simp] theorem crcFold_nil (a : Word) : crcFold a [] = a := rfl

@[simp] theorem crcFold_cons (a : Word) (b : Byte) (bs : List Byte) :
    crcFold a (b :: bs) = crcFold (crcStep a b) bs := rfl

theorem crcFold_append (a : Word) (bs cs : List Byte) :
    crcFold a (bs ++ cs) = crcFold (crcFold a bs) cs := List.foldl_append

theorem crcResult_involutive (a : Word) : crcResult (crcResult a) = a := by
  simp [crcResult]

/-- The rounds are linear over XOR: a round shifts, and XORs the polynomial if the bit it shifts out was set. -/
theorem crcRound_xor (a b : Word) : crcRound (a ^^^ b) = crcRound a ^^^ crcRound b := by
  unfold crcRound
  rw [BitVec.getLsbD_xor, BitVec.ushiftRight_xor_distrib]
  cases a.getLsbD 0 <;> cases b.getLsbD 0 <;> simp
  · exact BitVec.xor_assoc _ _ _
  · rw [BitVec.xor_assoc, BitVec.xor_assoc, BitVec.xor_comm crcPoly]
  · rw [BitVec.xor_assoc, BitVec.xor_comm crcPoly, BitVec.xor_assoc, BitVec.xor_self, BitVec.xor_zero]

theorem crcRounds_xor (n : Nat) (a b : Word) :
    crcRounds n (a ^^^ b) = crcRounds n a ^^^ crcRounds n b := by
  induction n generalizing a b with
  | zero => rfl
  | succ n ih => simp only [crcRounds, crcRound_xor, ih]

theorem crcRounds_add (m n : Nat) (a : Word) : crcRounds (m + n) a = crcRounds n (crcRounds m a) := by
  induction m generalizing a with
  | zero => simp [crcRounds]
  | succ m ih => rw [Nat.succ_add]; exact ih _

/-! ### The GUID unit -/

@[simp] theorem perm_getElem (x : Buffer) (j : Nat) (h : j < 16) :
    (perm x)[j] = x[permIndex[j]] := by
  simp [perm]

/-- A load writes the byte it names. -/
theorem setGin_getElem_same (s : State) (i : Index4) (b : Byte) :
    (s.setGin i b).gin[bufferIndex i] = b := by
  simp

/-- A load leaves every other byte. -/
theorem setGin_getElem_other (s : State) (i : Index4) (b : Byte) (j : Fin 16) (h : j ≠ bufferIndex i) :
    (s.setGin i b).gin[j] = s.gin[j] := by
  have hv : (bufferIndex i).val ≠ j.val := fun e => h (Fin.ext e.symm)
  simp only [State.setGin_gin, Fin.getElem_fin]
  exact Vector.getElem_set_ne _ _ hv

/-! ### The port -/

/-- A whole aligned word of the bus is the port transaction at the register its offset names. -/
theorem busTransaction_whole (offset : BitVec 6) (op : BusOp) (h : offset.extractLsb' 0 2 = 0#2) :
    busTransaction ⟨offset, .word, 0xF#4, op⟩ = some (wordTransaction (widxOfOffset offset) op) := by
  simp [busTransaction, wholeAlignedWord, h]

/-- Every other access is no port transaction. -/
theorem busTransaction_none (a : BusAccess) (h : wholeAlignedWord a = false) : busTransaction a = none := by
  simp [busTransaction, h]

/-- A command neither reads nor writes the host's lists. -/
theorem exec_withHost (i : Instr) (s : State) (p : List HostRequest) (r : List Word) :
    ∃ t, exec i s = .next t ∧ t.pending = s.pending ∧ t.reads = s.reads ∧
      exec i { s with pending := p, reads := r } = .next { t with pending := p, reads := r } := by
  cases i with
  | nop => exact ⟨s, rfl, rfl, rfl, rfl⟩
  | crcInit => exact ⟨_, rfl, State.setAcc_pending s _, State.setAcc_reads s _, rfl⟩
  | crcFeed b => exact ⟨_, rfl, State.setAcc_pending s _, State.setAcc_reads s _, rfl⟩
  | guidLd k b => exact ⟨_, rfl, State.setGin_pending s _ _, State.setGin_reads s _ _, rfl⟩
  | guidDec => exact ⟨_, rfl, State.setGout_pending s _, State.setGout_reads s _, rfl⟩
  | guidEnc => exact ⟨_, rfl, State.setGout_pending s _, State.setGout_reads s _, rfl⟩

/-- One transaction: it always completes, never touches the host's requests, hands over at most one word,
and what it does to the block and which word it hands over do not depend on the host's lists. -/
theorem transact_withHost (x : Transaction) (s : State) (p : List HostRequest) (r : List Word) :
    ∃ t w, transact x s = .next t ∧ t.pending = s.pending ∧ t.reads = s.reads ++ w ∧
      transact x { s with pending := p, reads := r } = .next { t with pending := p, reads := r ++ w } := by
  cases x with
  | write widx data =>
    by_cases hw : widx = 0#4
    · subst hw
      cases hd : decode data with
      | command i =>
        obtain ⟨t, h1, h2, h3, h4⟩ := exec_withHost i s p r
        exact ⟨t, [], by simp [transact, portWrite, execute, hd, h1], h2, by simp [h3],
          by simp [transact, portWrite, execute, hd, h4]⟩
      | illegal e =>
        exact ⟨raiseIllegalCommand s, [], by simp [transact, portWrite, execute, hd], rfl, by simp,
          by simp [transact, portWrite, execute, hd, raiseIllegalCommand]⟩
    · exact ⟨s, [], by simp [transact, portWrite, hw], rfl, by simp, by simp [transact, portWrite, hw]⟩
  | read widx =>
    refine ⟨_, [portRead widx s], rfl, rfl, rfl, ?_⟩
    simp only [transact, State.observe, portRead]
    cases portReg widx <;> rfl
  | reset => exact ⟨_, [], rfl, rfl, by simp, by simp [transact, resetBlock]⟩

end Sys2Proof.Machine
end

