-- ==== Sys2Proof/Laws/Step.lean ====
section
/-! SUPPORT. One step and a run of steps: what a step does with each kind of request, the next state of a
transaction as a function (`served`), and a run over the host's transactions as a fold of it. -/

namespace Sys2Proof.Machine

/-! ### One step -/

theorem step_nil (s : State) (h : s.pending = []) : step s = .next s := by
  simp [step, serveNext, h]

theorem step_cons (s : State) (r : HostRequest) (rest : List HostRequest) (h : s.pending = r :: rest) :
    step s = serve r { s with pending := rest } := by
  simp [step, serveNext, h]

theorem serve_port (x : Transaction) (s : State) : serve (.port x) s = transact x s := rfl

theorem serve_bus_some (a : BusAccess) (x : Transaction) (s : State) (h : busTransaction a = some x) :
    serve (.bus a) s = transact x s := by
  simp [serve, h]

theorem serve_bus_none (a : BusAccess) (s : State) (h : busTransaction a = none) :
    serve (.bus a) s = .refused .notAWholeAlignedWord := by
  simp [serve, h]

/-! ### The next state of a command and of a transaction -/

/-- The next state of a command. -/
def performedState : Instr → State → State
  | .nop, s => s
  | .crcInit, s => s.setAcc crcInitialAcc
  | .crcFeed b, s => s.setAcc (crcStep s.acc b)
  | .guidLd i b, s => s.setGin i b
  | .guidDec, s => s.setGout (perm s.gin)
  | .guidEnc, s => s.setGout (perm s.gin)

theorem exec_eq (i : Instr) (s : State) : exec i s = .next (performedState i s) := by
  cases i <;> rfl

/-- The next state of a transaction. -/
def served (x : Transaction) (s : State) : State :=
  match x with
  | .write widx data =>
    if widx = 0#4 then
      match decode data with
      | .command i => performedState i s
      | .illegal _ => raiseIllegalCommand s
    else s
  | .read widx => s.observe (portRead widx s)
  | .reset => resetBlock s

theorem transact_eq (x : Transaction) (s : State) : transact x s = .next (served x s) := by
  cases x with
  | write widx data =>
    by_cases hw : widx = 0#4
    · cases hd : decode data with
      | command i => simp [transact, portWrite, execute, served, hw, hd, exec_eq]
      | illegal e => simp [transact, portWrite, execute, served, hw, hd]
    · simp [transact, portWrite, served, hw]
  | read widx => rfl
  | reset => rfl

/-- A legal word at CMD. -/
theorem served_of_performed (x : Transaction) (s : State) (i : Instr) (h : performed x = some i) :
    served x s = performedState i s := by
  cases x with
  | write widx data =>
    by_cases hw : widx = 0#4
    · cases hd : decode data with
      | command k =>
        have : k = i := by simpa [performed, hw, decodeCommand, hd] using h
        simp [served, hw, hd, this]
      | illegal e => simp [performed, hw, decodeCommand, hd] at h
    · simp [performed, hw] at h
  | read widx => simp [performed] at h
  | reset => simp [performed] at h

/-- An illegal word at CMD. -/
theorem served_of_illegal (x : Transaction) (s : State) (h : writesIllegal x = true) :
    served x s = raiseIllegalCommand s := by
  cases x with
  | write widx data =>
    cases hd : decode data with
    | command k => simp [writesIllegal, isIllegal, decodeCommand, hd] at h
    | illegal e =>
      have hw : widx = 0#4 := by simpa [writesIllegal, isIllegal, decodeCommand, hd] using h
      simp [served, hw, hd]
  | read widx => simp [writesIllegal] at h
  | reset => simp [writesIllegal] at h

/-- Every transaction is a command, an illegal word, a Reset, a Read, or a Write that is ignored. -/
theorem served_cases (x : Transaction) (s : State) :
    (∃ i, performed x = some i ∧ writesIllegal x = false ∧ isReset x = false ∧ served x s = performedState i s) ∨
    (performed x = none ∧ writesIllegal x = true ∧ isReset x = false ∧ served x s = raiseIllegalCommand s) ∨
    (performed x = none ∧ writesIllegal x = false ∧ isReset x = true ∧ served x s = resetBlock s) ∨
    (∃ widx, x = .read widx ∧ served x s = s.observe (portRead widx s)) ∨
    (∃ widx data, x = .write widx data ∧ widx ≠ 0#4 ∧ served x s = s) := by
  cases x with
  | write widx data =>
    by_cases hw : widx = 0#4
    · cases hd : decode data with
      | command i =>
        exact .inl ⟨i, by simp [performed, hw, decodeCommand, hd],
          by simp [writesIllegal, isIllegal, decodeCommand, hd], rfl, by simp [served, hw, hd]⟩
      | illegal e =>
        exact .inr (.inl ⟨by simp [performed, hw, decodeCommand, hd],
          by simp [writesIllegal, hw, isIllegal, decodeCommand, hd], rfl, by simp [served, hw, hd]⟩)
    · exact .inr (.inr (.inr (.inr ⟨widx, data, rfl, hw, by simp [served, hw]⟩)))
  | read widx => exact .inr (.inr (.inr (.inl ⟨widx, rfl, rfl⟩)))
  | reset => exact .inr (.inr (.inl ⟨rfl, rfl, rfl, rfl⟩))

@[simp] theorem performedState_pending (i : Instr) (s : State) : (performedState i s).pending = s.pending := by
  cases i <;> simp [performedState]

@[simp] theorem performedState_reads (i : Instr) (s : State) : (performedState i s).reads = s.reads := by
  cases i <;> simp [performedState]

@[simp] theorem performedState_ill (i : Instr) (s : State) : (performedState i s).ill = s.ill := by
  cases i <;> simp [performedState]

@[simp] theorem served_pending (x : Transaction) (s : State) : (served x s).pending = s.pending := by
  rcases served_cases x s with ⟨_, _, _, _, h⟩ | ⟨_, _, _, h⟩ | ⟨_, _, _, h⟩ | ⟨_, _, h⟩ | ⟨_, _, _, _, h⟩ <;> simp [h]

/-! ### A run over the host's transactions -/

/-- The block after a list of transactions. -/
def servedAll : List Transaction → State → State
  | [], s => s
  | x :: xs, s => servedAll xs (served x s)

theorem servedAll_append (xs ys : List Transaction) (s : State) :
    servedAll (xs ++ ys) s = servedAll ys (servedAll xs s) := by
  induction xs generalizing s with
  | nil => rfl
  | cons x xs ih => exact ih _

@[simp] theorem servedAll_pending (xs : List Transaction) (s : State) : (servedAll xs s).pending = s.pending := by
  induction xs generalizing s with
  | nil => rfl
  | cons x xs ih => simp [servedAll, ih]

theorem step_facing_cons (x : Transaction) (xs : List Transaction) (s : State) :
    step (s.facing (x :: xs)) = .next ((served x s).facing xs) := by
  rw [step_cons _ (.port x) (xs.map .port ++ s.pending) rfl, serve_port]
  obtain ⟨t, w, h1, h2, h3, h4⟩ := transact_withHost x s (xs.map .port ++ s.pending) s.reads
  rw [transact_eq] at h1
  cases h1
  change transact x { s with pending := xs.map .port ++ s.pending, reads := s.reads } = _
  rw [h4]
  simp [State.facing, ← h3]

/-- The run of as many steps as the host has transactions serves them all, in order. -/
theorem runSteps_facing (xs : List Transaction) (s : State) :
    runSteps xs.length (s.facing xs) = .next (servedAll xs s) := by
  induction xs generalizing s with
  | nil => rfl
  | cons x xs ih =>
    simp only [List.length_cons, runSteps, step_facing_cons, servedAll]
    exact ih _

theorem runSteps_add (m n : Nat) (s t : State) (h : runSteps m s = .next t) :
    runSteps (m + n) s = runSteps n t := by
  induction m generalizing s with
  | zero =>
    cases h
    simp
  | succ m ih =>
    rw [Nat.succ_add]
    simp only [runSteps] at h ⊢
    cases hs : step s with
    | next u =>
      simp only [hs] at h ⊢
      exact ih u h
    | fault f => simp [hs] at h
    | refused r => simp [hs] at h

end Sys2Proof.Machine
end

