-- ==== Sys2Proof/Laws/HostUsage.lean ====
section
/-! SUPPORT. Host software around the block: when a read of the image gives bytes or a GUID, what a flipped
bit leaves, what zeroing the checksum field does, and the bytes of the words read from GOUT. -/

namespace Sys2Proof.Machine

/-! ### The image -/

/-- All that a read of the image can answer. -/
theorem Image.bytes_eq_some (image : Image) (a n : Nat) (bs : List Byte) :
    image.bytes a n = some bs ↔ (n = 0 ∨ a + n ≤ image.length) ∧ (image.drop a).take n = bs := by
  unfold Image.bytes
  split <;> simp_all

@[simp] theorem Image.bytes_zero (image : Image) (a : Nat) : image.bytes a 0 = some [] := by
  simp [Image.bytes]

theorem Image.bytes_length (image : Image) (a n : Nat) (bs : List Byte) (h : image.bytes a n = some bs) :
    bs.length = n := by
  obtain ⟨hn, rfl⟩ := (image.bytes_eq_some a n bs).1 h
  simp only [List.length_take, List.length_drop]
  omega

/-- Byte `k` of the bytes read is byte `a + k` of the image. -/
theorem Image.bytes_getElem? (image : Image) (a n : Nat) (bs : List Byte) (h : image.bytes a n = some bs)
    (k : Nat) (hk : k < n) : bs[k]? = image[a + k]? := by
  obtain ⟨-, rfl⟩ := (image.bytes_eq_some a n bs).1 h
  simp [hk]

theorem Image.bytes_isSome (image : Image) (a n : Nat) (h : a + n ≤ image.length) :
    image.bytes a n = some ((image.drop a).take n) :=
  (image.bytes_eq_some a n _).2 ⟨.inr h, rfl⟩

/-- All that taking a GUID out of the image can answer: the 16 bytes there. -/
theorem Image.guid_eq_some (image : Image) (a : Nat) (x : Buffer) :
    image.guid a = some x ↔ ∀ j : Fin 16, image[a + j.val]? = some x[j] := by
  constructor
  · intro h j
    obtain ⟨bs, hb, h⟩ := Option.bind_eq_some_iff.1 h
    rw [← Image.bytes_getElem? image a 16 bs hb j.val j.isLt]
    split_ifs at h with hl
    cases h
    simp [hl]
  · intro h
    have hend : a + 16 ≤ image.length := by
      have := (List.getElem?_eq_some_iff.1 (h 15)).1
      simp at this
      omega
    have hb := image.bytes_isSome a 16 hend
    have hl := image.bytes_length a 16 _ hb
    simp only [Image.guid, hb, Option.bind_some, hl, dif_pos, Option.some.injEq]
    apply Vector.ext
    intro j hj
    have := h ⟨j, hj⟩
    rw [← Image.bytes_getElem? image a 16 _ hb j hj] at this
    simpa using (List.getElem?_eq_some_iff.1 this).2

theorem partArray_eq_some (blockSize : Nat) (image : Image) (lba count size : Nat)
    (hlba : image.field (headerStart blockSize + 72) 8 = some lba)
    (hcount : image.field (headerStart blockSize + 80) 4 = some count)
    (hsize : image.field (headerStart blockSize + 84) 4 = some size) :
    partArray blockSize image = some ⟨blockSize * lba, count, size⟩ := by
  simp [partArray, hlba, hcount, hsize]

@[simp] theorem Image.length_flipBit (image : Image) (a : Nat) (bit : Fin 8) :
    (image.flipBit a bit).length = image.length := by
  simp [Image.flipBit]

theorem Image.flipBit_getElem? (image : Image) (a : Nat) (bit : Fin 8) (i : Nat) :
    (image.flipBit a bit)[i]? = if a = i then image[i]?.map (· ^^^ (1#8 <<< bit.val)) else image[i]? := by
  simp only [Image.flipBit, List.getElem?_modify]
  split <;> simp_all

/-- A read that does not take in the flipped byte is unchanged. -/
theorem Image.bytes_flipBit_of_outside (image : Image) (a n x : Nat) (bit : Fin 8) (h : x < a ∨ a + n ≤ x) :
    (image.flipBit x bit).bytes a n = image.bytes a n := by
  simp only [Image.bytes, Image.length_flipBit]
  congr 2
  apply List.ext_getElem?
  intro k
  simp only [List.getElem?_take, List.getElem?_drop, Image.flipBit_getElem?]
  split
  · rw [if_neg (by omega)]
  · rfl

/-- Flipping a bit changes the byte. -/
theorem flipped_ne (b : Byte) (bit : Fin 8) : b ^^^ (1#8 <<< bit.val) ≠ b := by
  have mask_ne : ∀ bit : Fin 8, (1#8 <<< bit.val) ≠ 0#8 := by decide
  intro h
  exact mask_ne bit (by simpa using h)

/-! ### The bytes and the transactions of one checksum -/

/-- All that zeroing the checksum field does: bytes 16 to 19 are zero, every other byte stays (R73). -/
theorem zeroChecksumField_getElem? (raw : List Byte) (k : Nat) :
    (zeroChecksumField raw)[k]? = if 16 ≤ k ∧ k < 20 then raw[k]?.map (fun _ => 0x00#8) else raw[k]? := by
  simp only [zeroChecksumField, List.append_assoc, List.getElem?_append, List.length_take, List.length_map,
    List.length_drop, List.getElem?_map, List.getElem?_take, List.getElem?_drop]
  by_cases hk : k < raw.length
  · split_ifs <;> first | omega | rfl | (congr 2; omega)
  · rw [List.getElem?_eq_none (Nat.le_of_not_lt hk)]
    split_ifs <;> simp <;> omega

@[simp] theorem length_zeroChecksumField (raw : List Byte) : (zeroChecksumField raw).length = raw.length := by
  simp [zeroChecksumField]
  omega

@[simp] theorem length_checksumTransactions (bs : List Byte) :
    (checksumTransactions bs).length = bs.length + 2 := by
  simp [checksumTransactions, feedBytes]

/-! ### The bytes of the words read -/

/-- Each bit of four bytes joined to a word. -/
theorem bytes_append_getLsbD (a b c d : Byte) (k : Nat) :
    (d ++ c ++ b ++ a : Word).getLsbD k =
      if k < 8 then a.getLsbD k else if k < 16 then b.getLsbD (k - 8)
      else if k < 24 then c.getLsbD (k - 16) else d.getLsbD (k - 24) := by
  simp only [BitVec.getLsbD_append]
  split_ifs <;> first | rfl | omega

/-- The bytes of a lane word are the four bytes of the buffer, in order (R33). -/
theorem wordBytes_laneWord (x : Buffer) (k : Fin 4) :
    wordBytes (laneWord x k) = [x[4 * k.val], x[4 * k.val + 1], x[4 * k.val + 2], x[4 * k.val + 3]] := by
  simp only [wordBytes, List.cons.injEq, and_true]
  refine ⟨?_, ?_, ?_, ?_⟩ <;>
    (apply BitVec.eq_of_getLsbD_eq
     intro i hi
     simp only [BitVec.getLsbD_extractLsb', hi, decide_true, Bool.true_and, laneWord, bytes_append_getLsbD]
     split_ifs <;> first | omega | (congr 1; omega))

end Sys2Proof.Machine
end

