-- ==== Sys2Proof/Laws/PerInstr.lean ====
section
/-! SUPPORT. The family Format of LAWS.json: every command's encoding splits into format C fields that
are legal, with RSV zero and OP the command's opcode (30_encoding.md R47, R48, R51, R52). -/

namespace Sys2Proof.Laws.Format

/-- The fields of the command's word are its opcode, a zero RSV, its index and its byte, and they pass
the format check. -/
def Statement (i : Instr) : Prop :=
  splitFields (encode i) = ⟨opcodeOf i, 0#12, idxOf i, immOf i⟩ ∧
    (splitFields (encode i)).wellFormed = true

/-- Each bit of a concatenation of the four fields. -/
theorem append_getLsbD (op : BitVec 8) (rsv : BitVec 12) (idx : Index4) (imm : Byte) (k : Nat) :
    BitVec.getLsbD (w := 32) (op ++ rsv ++ idx ++ imm) k =
      if k < 8 then imm.getLsbD k
      else if k < 12 then idx.getLsbD (k - 8)
      else if k < 24 then rsv.getLsbD (k - 12)
      else op.getLsbD (k - 24) := by
  change BitVec.getLsbD (w := 8 + 12 + 4 + 8) (op ++ rsv ++ idx ++ imm) k = _
  rw [BitVec.getLsbD_append, BitVec.getLsbD_append, BitVec.getLsbD_append]
  have e1 : (k - 8 < 4) = (k < 12 ∨ k < 8) := by apply propext; omega
  by_cases h1 : k < 8 <;> by_cases h2 : k < 12 <;> by_cases h3 : k < 24 <;>
    simp [h1, h2, h3, e1, Nat.sub_sub] <;> omega

/-- Splitting a concatenation of the four fields gives the four fields. -/
theorem splitFields_append (op : BitVec 8) (rsv : BitVec 12) (idx : Index4) (imm : Byte) :
    splitFields (op ++ rsv ++ idx ++ imm) = ⟨op, rsv, idx, imm⟩ := by
  simp only [splitFields, FormatC.mk.injEq]
  refine ⟨?_, ?_, ?_, ?_⟩ <;> apply BitVec.eq_of_getLsbD_eq <;> intro k hk <;>
    rw [BitVec.getLsbD_extractLsb', append_getLsbD]
  · rw [if_neg (by omega), if_neg (by omega), if_neg (by omega)]; simp [hk]
  · rw [if_neg (by omega), if_neg (by omega), if_pos (by omega)]; simp [hk]
  · rw [if_neg (by omega), if_pos (by omega)]; simp [hk]
  · simp [hk]

theorem nop : Statement .nop := ⟨by decide, by decide⟩

theorem crcInit : Statement .crcInit := ⟨by decide, by decide⟩

theorem crcFeed (b : Byte) : Statement (.crcFeed b) := by
  refine ⟨splitFields_append _ _ _ _, ?_⟩
  rw [encode, splitFields_append]
  simp [FormatC.wellFormed, FormatC.rsvOk, FormatC.opOk, FormatC.idxOk, FormatC.immOk, opcodeOf, idxOf]

theorem guidLd (i : Index4) (b : Byte) : Statement (.guidLd i b) := by
  refine ⟨splitFields_append _ _ _ _, ?_⟩
  rw [encode, splitFields_append]
  simp [FormatC.wellFormed, FormatC.rsvOk, FormatC.opOk, FormatC.idxOk, FormatC.immOk, opcodeOf]

theorem guidDec : Statement .guidDec := ⟨by decide, by decide⟩

theorem guidEnc : Statement .guidEnc := ⟨by decide, by decide⟩

end Sys2Proof.Laws.Format
end

