-- ==== Sys2Proof/Tests/Slice0.lean ====
section
/-! SUPPORT. Tests.  Expected values come from the spec: the tables of 95_test_vectors.md, the examples in
the command rules and the listing of 40_crc.md R62.  After them, one witness for each obligation that has
hypotheses. -/

namespace Sys2Proof.Tests

open Sys2Proof.Machine

/-! ### Small inputs -/

/-- The buffer 00 01 02 ... 0f (95_test_vectors.md 2.4). -/
def ramp : Buffer := #v[0, 1, 2, 3, 4, 5, 6, 7, 8, 9, 10, 11, 12, 13, 14, 15]

/-- The on-disk GUID of example E4. -/
def onDiskGuid : Buffer := #v[0x12, 0xdb, 0x7c, 0x3b, 0xe4, 0x7f, 0x25, 0x46, 0x9c, 0x00, 0xb3, 0xae, 0x6d, 0xc7, 0x24, 0x6d]

/-- The canonical GUID of example E4. -/
def canonicalGuid : Buffer := #v[0x3b, 0x7c, 0xdb, 0x12, 0x7f, 0xe4, 0x46, 0x25, 0x9c, 0x00, 0xb3, 0xae, 0x6d, 0xc7, 0x24, 0x6d]

/-- A state with a given ACC. -/
def withAcc (a : Word) : State := { State.reset with acc := a }

/-- A state with a given GIN. -/
def withGin (x : Buffer) : State := { State.reset with gin := x }

/-- The host's next requests, over the reset state. -/
def facingRequests (rs : List HostRequest) : State := { State.reset with pending := rs }

/-- ACC of an outcome. -/
def accOf : Result → Option Word
  | .next s => some s.acc
  | .fault _ => none
  | .refused _ => none

/-- GOUT of an outcome. -/
def goutOf : Result → Option Buffer
  | .next s => some s.gout
  | .fault _ => none
  | .refused _ => none

/-- GIN of an outcome. -/
def ginOf : Result → Option Buffer
  | .next s => some s.gin
  | .fault _ => none
  | .refused _ => none

/-! ### WellFormed: an ill-formed term for each check, refused; and a legal one, let through -/

theorem test_wf_rsv : (FormatC.mk 0x02#8 0x001#12 0#4 0x31#8).wellFormed = false := by decide
theorem test_wf_opcode : (FormatC.mk 0x03#8 0#12 0#4 0#8).wellFormed = false := by decide
theorem test_wf_idx : (FormatC.mk 0x02#8 0#12 1#4 0x61#8).wellFormed = false := by decide
theorem test_wf_imm : (FormatC.mk 0x11#8 0#12 0#4 0x01#8).wellFormed = false := by decide
theorem test_wf_legal : (FormatC.mk 0x10#8 0#12 15#4 0x6D#8).wellFormed = true := by decide

theorem test_asm_byte_out_of_range : assembleLine (.crcFeed 256) = none := by decide
theorem test_asm_index_out_of_range : assembleLine (.guidLd 16 0) = none := by decide
theorem test_asm_loaded_byte_out_of_range : assembleLine (.guidLd 15 256) = none := by decide
theorem test_asm_bytes_out_of_range : assembleLine (.crcBytes [255, 256]) = none := by decide
theorem test_asm_not_ascii : assembleLine (.crcStr [128]) = none := by decide
theorem test_asm_fifteen_bytes : assembleLine (.guidLoad16 (List.replicate 15 0)) = none := by decide
theorem test_asm_load_byte_out_of_range : assembleLine (.guidLoad16 (256 :: List.replicate 15 0)) = none := by decide
theorem test_asm_register_out_of_range : assembleLine (.rd 16) = none := by decide
theorem test_asm_write_index_out_of_range : assembleLine (.wr 16 0) = none := by decide
theorem test_asm_write_word_out_of_range : assembleLine (.wr 0 4294967296) = none := by decide

theorem test_bus_narrow : busTransaction ⟨0x04#6, .byte, 0xF#4, .read⟩ = none := by decide
theorem test_bus_byte_enabled : busTransaction ⟨0x04#6, .word, 0x1#4, .read⟩ = none := by decide
theorem test_bus_misaligned : busTransaction ⟨0x05#6, .word, 0xF#4, .read⟩ = none := by decide
theorem test_bus_whole : busTransaction ⟨0x3C#6, .word, 0xF#4, .read⟩ = some (.read 15#4) := by decide

/-! ### Decoding: words written out from R47 and R48 -/

theorem test_decode_nop : decode 0b00000000000000000000000000000000#32 = .command .nop := by decide
theorem test_decode_crcInit : decode 0b00000001000000000000000000000000#32 = .command .crcInit := by decide
theorem test_decode_crcFeed : decode 0b00000010000000000000000000110001#32 = .command (.crcFeed 0x31#8) := by decide
theorem test_decode_guidLd : decode 0b00010000000000000000101110101110#32 = .command (.guidLd 11#4 0xAE#8) := by decide
theorem test_decode_guidDec : decode 0b00010001000000000000000000000000#32 = .command .guidDec := by decide
theorem test_decode_guidEnc : decode 0b00010010000000000000000000000000#32 = .command .guidEnc := by decide

/-- The illegal words of 95_test_vectors.md 2.5 and of program P5. -/
theorem test_decode_illegal :
    [0x00000001#32, 0x00000100#32, 0x01000001#32, 0x01800000#32, 0x02000100#32, 0x02001000#32, 0x03000000#32,
      0x0F000000#32, 0x10001000#32, 0x11000001#32, 0x12000F00#32, 0x13000000#32, 0xFF000000#32,
      0x02000161#32].all isIllegal = true := by decide

/-- Each illegal word names the rule it breaks. -/
theorem test_decode_illegal_names :
    decode 0x02001000#32 = .illegal .reservedFieldSet ∧ decode 0x02000100#32 = .illegal .unusedFieldSet ∧
      decode 0x13000000#32 = .illegal .reservedOpcode := by decide

/-- The encodings of the host's table, row by row, and a row whose word is illegal. -/
theorem test_decodeTableWord :
    decodeTableWord 32 0x01000000 = some .crcInit ∧ decodeTableWord 32 0x1000033B = some (.guidLd 3#4 0x3B#8) ∧
      decodeTableWord 32 0x03000000 = none := by decide

/-! ### CRC: the listing of R62, the single steps of 95_test_vectors.md 2.1, whole buffers of 2.3 -/

theorem test_table_first_row :
    [0x00#8, 0x01#8, 0x02#8, 0x03#8, 0x04#8, 0x05#8, 0x06#8, 0x07#8].map crcTable =
      [0x00000000#32, 0x77073096#32, 0xEE0E612C#32, 0x990951BA#32, 0x076DC419#32, 0x706AF48F#32, 0xE963A535#32,
        0x9E6495A3#32] := by decide

theorem test_table_last_row :
    [0xF8#8, 0xF9#8, 0xFA#8, 0xFB#8, 0xFC#8, 0xFD#8, 0xFE#8, 0xFF#8].map crcTable =
      [0xB3667A2E#32, 0xC4614AB8#32, 0x5D681B02#32, 0x2A6F2B94#32, 0xB40BBE37#32, 0xC30C8EA1#32, 0x5A05DF1B#32,
        0x2D02EF8D#32] := by decide

theorem test_poly_is_reversal :
    ∀ k : Fin 32, crcPoly.getLsbD k.val = (0x04C11DB7#32).getLsbD (31 - k.val) := by decide

theorem test_feed_steps :
    accOf (exec (.crcFeed 0x00#8) (withAcc 0x12345678#32)) = some 0x5ECCCD58#32 ∧
      accOf (exec (.crcFeed 0xA5#8) (withAcc 0xDEADBEEF#32)) = some 0x96D70530#32 := by decide

theorem test_feed_top_bit_only_shifts :
    accOf (exec (.crcFeed 0x00#8) (withAcc 0x80000000#32)) = some 0x00800000#32 := by decide

theorem test_init_abandons : accOf (exec .crcInit (withAcc 0x340BC6D9#32)) = some 0xFFFFFFFF#32 := by decide

theorem test_crc32_abc : crc32 [0x61, 0x62, 0x63] = 0x352441C2#32 := by decide +kernel
theorem test_crc32_check_value :
    crc32 [0x31, 0x32, 0x33, 0x34, 0x35, 0x36, 0x37, 0x38, 0x39] = 0xCBF43926#32 := by decide +kernel

/-! ### GUID: 95_test_vectors.md 2.4 -/

theorem test_dec_example : goutOf (exec .guidDec (withGin onDiskGuid)) = some canonicalGuid := by decide
theorem test_enc_example : goutOf (exec .guidEnc (withGin canonicalGuid)) = some onDiskGuid := by decide

theorem test_dec_ramp : goutOf (exec .guidDec (withGin ramp)) =
    some #v[3, 2, 1, 0, 5, 4, 7, 6, 8, 9, 10, 11, 12, 13, 14, 15] := by decide

theorem test_ld_last_index : ginOf (exec (.guidLd 15#4 0x6D#8) State.reset) =
    some #v[0, 0, 0, 0, 0, 0, 0, 0, 0, 0, 0, 0, 0, 0, 0, 0x6D] := by decide

theorem test_ld_leaves_gout : goutOf (exec (.guidLd 0#4 0x12#8) { withGin ramp with gout := ramp }) = some ramp := by
  decide

/-! ### The port: R30, 95_test_vectors.md 2.5 and 2.6 -/

theorem test_read_gin_words : [4#4, 5#4, 6#4, 7#4].map (portRead · (withGin ramp)) =
    [0x03020100#32, 0x07060504#32, 0x0B0A0908#32, 0x0F0E0D0C#32] := by decide

theorem test_read_gout_words : [8#4, 9#4, 10#4, 11#4].map (portRead · { State.reset with gout := canonicalGuid }) =
    [0x12DB7C3B#32, 0x2546E47F#32, 0xAEB3009C#32, 0x6D24C76D#32] := by decide

theorem test_read_after_reset : [0#4, 1#4, 2#4, 3#4, 4#4, 11#4, 12#4, 15#4].map (portRead · State.reset) =
    [0#32, 0#32, 0xFFFFFFFF#32, 0#32, 0#32, 0#32, 0#32, 0#32] := by decide

theorem test_status_after_illegal : portRead 1#4 (raiseIllegalCommand State.reset) = 0x00000001#32 := by decide

/-- An illegal CRC.FEED feeds nothing (2.5). -/
theorem test_illegal_feeds_nothing :
    accOf (execute 0x02000100#32 (withAcc 0x7C231048#32)) = some 0x7C231048#32 := by decide

/-- A write to a read-only register is ignored and sets nothing (2.6). -/
theorem test_write_to_gin_ignored : step (facingRequests [.port (.write 5#4 0xFFFFFFFF#32)]) = .next State.reset := rfl

/-- The first instruction after Reset, placed by the host. -/
theorem test_first_instruction :
    accOf (step (State.reset.withFetchWord 32 0x02000031)) = some 0x7C231048#32 := by decide

/-! ### Assembly text (R59, R60) -/

theorem test_asm_nop_text : assemble "NOP ; nothing" = some [.write 0#4 0x00000000#32] := by decide
theorem test_asm_feed_text : assemble "CRC.FEED '1'" = some [.write 0#4 0x02000031#32] := by decide

theorem test_asm_load_text : assemble "GUID.LD 15, 0x6D" = some [.write 0#4 0x10000F6D#32] := by decide
theorem test_asm_index_is_decimal : assemble "GUID.LD 0x1, 0" = none := by decide

theorem test_asm_lines_text : assemble "RESET\nWR 5, 0xFFFFFFFF\nRD GOUT_W3" =
    some [.reset, .write 5#4 0xFFFFFFFF#32, .read 11#4] := by decide

theorem test_asm_bytes_text : assemble "CRC.BYTES 97, 0x62" =
    some [.write 0#4 0x02000061#32, .write 0#4 0x02000062#32] := by decide

/-! ### Host usage: program P3 of 95_test_vectors.md -/

/-- The 92 header bytes of P3, offsets 0 to 55. -/
def headerStartBytes : List Byte :=
  [0x45, 0x46, 0x49, 0x20, 0x50, 0x41, 0x52, 0x54, 0x00, 0x00, 0x01, 0x00, 0x5C, 0x00, 0x00, 0x00] ++
  [0xAB, 0xE5, 0x54, 0x4F, 0x00, 0x00, 0x00, 0x00, 0x01, 0x00, 0x00, 0x00, 0x00, 0x00, 0x00, 0x00] ++
  [0xFF, 0x1F, 0x00, 0x00, 0x00, 0x00, 0x00, 0x00, 0x22, 0x00, 0x00, 0x00, 0x00, 0x00, 0x00, 0x00] ++
  [0xDE, 0x1F, 0x00, 0x00, 0x00, 0x00, 0x00, 0x00]

/-- The 92 header bytes of P3, offsets 56 to 91. -/
def headerEndBytes : List Byte :=
  onDiskGuid.toList ++ [0x02, 0x00, 0x00, 0x00, 0x00, 0x00, 0x00, 0x00] ++
  [0x80, 0x00, 0x00, 0x00, 0x80, 0x00, 0x00, 0x00, 0x86, 0xD2, 0x54, 0xAB]

/-- An image whose block is 1 byte long: one byte, then the header of P3. -/
def headerImage : Image := 0x00#8 :: headerStartBytes ++ headerEndBytes

theorem test_header_range : (headerChecksumBytes 1 headerImage).map List.length = some 92 := by decide

/-- The checksum field, offsets 16 to 19, is fed as zeros and its neighbours are not touched (P3). -/
theorem test_header_checksum_field :
    (headerChecksumBytes 1 headerImage).map (fun bs => (bs.drop 12).take 13) =
      some [0x5C, 0x00, 0x00, 0x00, 0x00, 0x00, 0x00, 0x00, 0x00, 0x00, 0x00, 0x00, 0x01] := by decide

theorem test_stored_header_crc : storedHeaderCrc 1 headerImage = some 0x4F54E5AB#32 := by decide

theorem test_stored_array_crc : storedArrayCrc 1 headerImage = some 0xAB54D286#32 := by decide

/-- R76: no entries, and an array that would start far beyond the image: no byte is read, and the stored
0xAB54D286 is not 0. -/
theorem test_empty_array_beyond_image :
    arrayChecksumBytes 1 ((headerImage.set 81 0x00#8).set 80 0xFF#8) = some [] ∧
      partArrayCrcOk 1 ((headerImage.set 81 0x00#8).set 80 0xFF#8) = some false := by decide +kernel

/-- One entry there: a byte past the end is read, so there is no byte list. -/
theorem test_array_beyond_image : arrayChecksumBytes 1 headerImage = none := by decide

/-- A header of 21 bytes, block 1 byte long, one byte after it; its CRC is that of zlib's crc32. -/
def shortHeader : Image :=
  List.replicate 13 0x00#8 ++ [0x15, 0x00, 0x00, 0x00, 0x5F, 0x7A, 0xED, 0x2C, 0x5A, 0x00]

/-- R76: the top bit of the last covered byte flipped, and a bit of the first byte not covered. -/
theorem test_header_flips : headerCrcOk 1 (shortHeader.flipBit 21 7) = some false ∧
    headerCrcOk 1 (shortHeader.flipBit 22 0) = some true := by decide +kernel

/-- Blanks may be left out beside a literal and a comma (log entry 12). -/
theorem test_asm_no_blank_text : assemble "CRC.FEED'1'" = some [.write 0#4 0x02000031#32] ∧
    assemble "GUID.LD 15,0x6D" = some [.write 0#4 0x10000F6D#32] := by decide

/-- CRC.ZEROS expands to zeros and takes a decimal number (log entry 12). -/
theorem test_asm_zeros_text : assemble "CRC.ZEROS 2" = some [.write 0#4 0x02000000#32, .write 0#4 0x02000000#32] ∧
    assemble "CRC.ZEROS 0x2" = none := by decide

/-- P3: disk_guid holds the bytes of E4. -/
theorem test_disk_guid : diskGuid 1 headerImage = some onDiskGuid := by decide

/-- An image of two entries of 32 bytes at block 93, whose byte `k` is `k`. -/
def entriesImage : Image :=
  ((headerImage.set 73 93).set 81 2).set 85 32 ++ (List.range 64).map (BitVec.ofNat 8)

/-- The second of two entries: its part_type_guid begins at byte 32 and its unique_uuid at byte 48 of the
array; there is no third (R74, R87). -/
theorem test_entry_guids :
    (partTypeGuid 1 entriesImage 1).map Vector.toList = some ((List.range' 32 16).map (BitVec.ofNat 8)) ∧
      (uniqueUuid 1 entriesImage 1).map Vector.toList = some ((List.range' 48 16).map (BitVec.ofNat 8)) ∧
      partTypeGuid 1 entriesImage 2 = none := by decide +kernel

/-- The first word of P2, byte by byte. -/
theorem test_word_bytes : wordBytes 0x12DB7C3B#32 = [0x3b, 0x7c, 0xdb, 0x12] := by decide

/-- The string of example E4, in upper case. -/
theorem test_render : renderGuidIn true canonicalGuid = "3B7CDB12-7FE4-4625-9C00-B3AE6DC7246D".toList := by decide

/-! ### Witnesses: for each obligation with hypotheses, inputs that meet them, clause by clause -/

theorem witness_EncodeAndDecodeAreInverse : decode 0x10000F6D#32 = .command (.guidLd 15#4 0x6D#8) := by decide

theorem witness_LegalWordCensus : isIllegal 0x03000000#32 = true := by decide

/-- Also the witness of StepRunsTheDecodedCommand. -/
theorem witness_ExecutePerformsTheDecodedCommand :
    decode 0x02000031#32 = .command (.crcFeed 0x31#8) ∧ decode 0x02000161#32 = .illegal .unusedFieldSet := by decide

/-- Word index 0 is CMD; 1 and 15 are not. -/
theorem witness_WriteExecutesOnlyAtCmd : (0#4 : Index4) = 0#4 ∧ (1#4 : Index4) ≠ 0#4 ∧ (15#4 : Index4) ≠ 0#4 := by decide

/-- The clauses of the register map meet at 11 and 12; the last reserved index is 15. -/
theorem witness_ReadReturnsTheMappedWord :
    ¬ 12 ≤ (11#4 : Index4).toNat ∧ 12 ≤ (12#4 : Index4).toNat ∧ 12 ≤ (15#4 : Index4).toNat := by decide

/-- A narrow, a byte-enabled and a misaligned access; the first and the last offset of the window. -/
theorem witness_OnlyWholeAlignedWordsReachThePort :
    (BusAccess.mk 0x04#6 .halfword 0xF#4 .read).size ≠ .word ∧
      (BusAccess.mk 0x04#6 .word 0x7#4 .read).enables ≠ 0xF#4 ∧
      (BusAccess.mk 0x03#6 .word 0xF#4 .read).offset.toNat % 4 ≠ 0 ∧
      (0x00#6 : BitVec 6).toNat = 4 * (0#4 : Index4).toNat ∧
      (0x3C#6 : BitVec 6).toNat = 4 * (15#4 : Index4).toNat := by decide

theorem witness_BlockWaitsForTheHost : State.reset.pending = [] := rfl

/-- A step that hands over a word, and one that does not. -/
theorem witness_StepMeetsOneRequest :
    (∃ t, step (facingRequests [.port (.read 2#4)]) = .next t ∧ t.reads = [0xFFFFFFFF#32]) ∧
      (∃ t, step (facingRequests [.port .reset]) = .next t ∧ t.reads = []) :=
  ⟨⟨_, rfl, rfl⟩, ⟨_, rfl, rfl⟩⟩

theorem witness_IllegalWordOnlySetsIll : isIllegal 0x02000161#32 = true := by decide

/-- ILL set, with a step that is no Reset and with one that is; transactions without a Reset, one illegal. -/
theorem witness_IllIsStickyUntilReset :
    (∃ t, step { facingRequests [.port (.read 1#4)] with ill := true } = .next t ∧ t.ill = true) ∧
      (∃ t, step { facingRequests [.port .reset] with ill := true } = .next t ∧ t.ill = false) ∧
      [Transaction.write 0#4 0x02000161#32, .read 1#4].any isReset = false :=
  ⟨⟨_, rfl, rfl⟩, ⟨_, rfl, rfl⟩, rfl⟩

theorem witness_IllDoesNotChangeCommands : ∃ t, exec (.guidLd 3#4 0x3B#8) State.reset = .next t := ⟨_, rfl⟩

/-- OP = 0x00 with the lowest and with the highest other bit set. -/
theorem witness_NopChangesNothing :
    (0x00000001#32).extractLsb' 24 8 = 0x00#8 ∧ 0x00000001#32 ≠ 0x00000000#32 ∧
      (0x00800000#32).extractLsb' 24 8 = 0x00#8 ∧ 0x00800000#32 ≠ 0x00000000#32 := by decide

theorem witness_CrcInitSetsTheAccumulator :
    (0x01000001#32).extractLsb' 24 8 = 0x01#8 ∧ 0x01000001#32 ≠ 0x01000000#32 ∧
      exec .crcInit (withAcc 0x340BC6D9#32) = .next (withAcc 0xFFFFFFFF#32) := ⟨by decide, by decide, rfl⟩

/-- CRC.FEED's word with its unused bits zero and with one of them set; ACC[7:0] equal to the byte. -/
theorem witness_CrcFeedFoldsOneByte :
    (0x020000FF#32).extractLsb' 24 8 = 0x02#8 ∧ (0x020000FF#32).extractLsb' 8 16 = 0#16 ∧
      (0x02000100#32).extractLsb' 24 8 = 0x02#8 ∧ (0x02000100#32).extractLsb' 8 16 ≠ 0#16 ∧
      (withAcc 0x12345678#32).acc.setWidth 8 = 0x78#8 := by decide

/-- GUID.LD's word with RSV zero and with its lowest bit set; the first load of two. -/
theorem witness_GuidLdWritesOneByte :
    (0x10000FFF#32).extractLsb' 24 8 = 0x10#8 ∧ (0x10000FFF#32).extractLsb' 12 12 = 0#12 ∧
      (0x10001000#32).extractLsb' 24 8 = 0x10#8 ∧ (0x10001000#32).extractLsb' 12 12 ≠ 0#12 ∧
      ∃ t, exec (.guidLd 3#4 0x3B#8) State.reset = .next t :=
  ⟨by decide, by decide, by decide, by decide, _, rfl⟩

theorem witness_GuidDecTranscodes :
    (0x11000001#32).extractLsb' 24 8 = 0x11#8 ∧ 0x11000001#32 ≠ 0x11000000#32 ∧
      (∃ t, exec .guidDec (withGin ramp) = .next t) ∧ State.reset.gin = Vector.replicate 16 0#8 ∧
      (withGin onDiskGuid).gin = onDiskGuid :=
  ⟨by decide, by decide, ⟨_, rfl⟩, rfl, rfl⟩

theorem witness_GuidEncTranscodes :
    (0x12000F00#32).extractLsb' 24 8 = 0x12#8 ∧ 0x12000F00#32 ≠ 0x12000000#32 ∧
      (∃ t, exec .guidEnc (withGin ramp) = .next t) ∧ State.reset.gin = Vector.replicate 16 0#8 ∧
      (withGin canonicalGuid).gin = canonicalGuid :=
  ⟨by decide, by decide, ⟨_, rfl⟩, rfl, rfl⟩

/-- A command that writes none of ACC, GIN and GOUT meets every premise of the frame. -/
theorem witness_CommandFrame :
    (∃ t, exec .nop State.reset = .next t) ∧ Instr.nop ≠ .crcInit ∧ (∀ b, Instr.nop ≠ .crcFeed b) ∧
      (∀ b, Instr.nop ≠ .guidLd 15#4 b) ∧ Instr.nop ≠ .guidDec ∧ Instr.nop ≠ .guidEnc := by
  refine ⟨⟨_, rfl⟩, ?_, ?_, ?_, ?_, ?_⟩ <;> simp

/-- One transaction that changes each element. -/
theorem witness_WhoWritesEachElement :
    (∃ t, step (State.reset.facing [command (.crcFeed 0x31#8)]) = .next t ∧ t.acc ≠ State.reset.acc) ∧
      (∃ t, step (State.reset.facing [command (.guidLd 15#4 0x6D#8)]) = .next t ∧
        t.gin[bufferIndex 15#4] ≠ State.reset.gin[bufferIndex 15#4]) ∧
      (∃ t, step ((withGin ramp).facing [command .guidEnc]) = .next t ∧ t.gout ≠ (withGin ramp).gout) ∧
      (∃ t, step (State.reset.facing [.write 0#4 0x03000000#32]) = .next t ∧ t.ill ≠ State.reset.ill) :=
  ⟨⟨_, step_facing_cons _ _ _, by decide⟩, ⟨_, step_facing_cons _ _ _, by decide⟩,
    ⟨_, step_facing_cons _ _ _, by decide⟩, ⟨_, step_facing_cons _ _ _, by decide⟩⟩

theorem witness_ChecksumResidue : 0xCBF43926#32 = crc32 [0x31, 0x32, 0x33, 0x34, 0x35, 0x36, 0x37, 0x38, 0x39] := by
  decide +kernel

/-- A feed between a NOP, a load, an illegal word, a Read and an ignored Write: none starts a CRC. -/
theorem witness_InterleavedFeedsGiveTheChecksum :
    ∀ x ∈ [command .nop, command (.guidLd 0#4 0x12#8), command (.crcFeed 0x61#8), .write 0#4 0x02000161#32,
      .read 3#4, .write 5#4 0xFFFFFFFF#32], startsCrc x = false := by decide

theorem witness_MidStreamReadsDoNotDisturb :
    (∀ x ∈ [command (.crcFeed 0x61#8)], startsCrc x = false) ∧
      (∀ x ∈ [command (.crcFeed 0x62#8), command (.crcFeed 0x63#8)], startsCrc x = false) := by decide

/-- No transcoding since Reset; and a transcoding with neither a Reset nor another one after it. -/
theorem witness_HistoryDeterminesTheBlock :
    (sinceLast isReset [command .guidDec, .reset, command (.guidLd 0#4 0x12#8)]).any transcodes = false ∧
      transcodes (command .guidDec) = true ∧
      ∀ y ∈ [command (.guidLd 0#4 0x12#8), .read 8#4], isReset y = false ∧ transcodes y = false := by decide

/-- Two states that differ only in what was read before; a run to a next state and one to a refusal. -/
theorem witness_FourElementsDetermineObservations :
    (∃ t, runSteps 1 (facingRequests [.port (.read 2#4)]) = .next t) ∧
      runSteps 1 (facingRequests [.bus ⟨0x05#6, .byte, 0x1#4, .read⟩]) = .refused .notAWholeAlignedWord ∧
      ({ State.reset with reads := [0#32] }).acc = State.reset.acc ∧
      ({ State.reset with reads := [0#32] }).pending = State.reset.pending :=
  ⟨⟨_, rfl⟩, rfl, rfl, rfl⟩

/-- A clean state with requests to come, of both kinds. -/
theorem witness_CleanStreamStaysClean :
    (facingRequests [.port (command .crcInit), .bus ⟨0x00#6, .word, 0xF#4, .write 0x02000031#32⟩]).Clean :=
  ⟨rfl, by decide⟩

theorem witness_GuidRoundTripThroughTheBlock :
    Instr.guidDec ∈ [Instr.guidDec, .guidEnc] ∧ Instr.guidEnc ∈ [Instr.guidDec, .guidEnc] := by decide

theorem witness_CanonicalFormIsBigEndian : ∃ t, exec .guidDec (withGin onDiskGuid) = .next t := ⟨_, rfl⟩

/-- Two inputs that agree at P[0] = 3 and nowhere else among the first four. -/
theorem witness_LanesDoNotMix :
    (withGin ramp).gin[permIndex[(0 : Fin 16)]] =
      (withGin #v[9, 9, 9, 3, 9, 9, 9, 9, 9, 9, 9, 9, 9, 9, 9, 9]).gin[permIndex[(0 : Fin 16)]] ∧
      (∃ t, exec .guidDec (withGin ramp) = .next t) ∧
      (∃ t, exec .guidDec (withGin #v[9, 9, 9, 3, 9, 9, 9, 9, 9, 9, 9, 9, 9, 9, 9, 9]) = .next t) :=
  ⟨by decide, ⟨_, rfl⟩, ⟨_, rfl⟩⟩

theorem witness_LoadOrderDoesNotMatter : (List.finRange 16).reverse.Perm (List.finRange 16) := List.reverse_perm _

theorem witness_HeaderChecksumThroughTheBlock : ∃ bs, headerChecksumBytes 1 headerImage = some bs := ⟨_, rfl⟩

/-- An image with one entry of 4 bytes at block 2, and one with no entries. -/
theorem witness_ArrayChecksumThroughTheBlock :
    (∃ bs, arrayChecksumBytes 1 ((headerImage.set 81 1).set 85 4) = some bs ∧ bs.length = 4) ∧
      arrayChecksumBytes 1 (headerImage.set 81 0) = some [] := by
  refine ⟨⟨_, rfl, ?_⟩, ?_⟩ <;> decide

/-- An image of the header alone, with no entries. -/
theorem witness_EmptyPartitionArrayCheck :
    1 + 92 ≤ (headerImage.set 81 0x00#8).length ∧ Image.field (headerImage.set 81 0x00#8) (1 + 80) 4 = some 0 := by decide

/-- A header with one byte after it, and offsets in each clause: the first and the last before
header_size_bytes, its own first and last, the stored checksum's first, the last covered and the first not
covered. -/
theorem witness_SingleBitFlipsFailTheHeaderCheck :
    shortHeader.field (1 + 12) 4 = some 21 ∧ headerCrcOk 1 shortHeader = some true ∧
      (∀ k ∈ [0, 11, 16, 20], k < 21 ∧ (k < 12 ∨ 16 ≤ k)) ∧
      (∀ k ∈ [12, 15], 12 ≤ k ∧ k < 16 ∧ k < 21) ∧ 21 ≤ 21 ∧ 20 ≤ 21 := by decide +kernel

/-- A header whose array is one entry of 4 bytes at block 2. -/
theorem witness_BothChecksRunWhateverEitherGives :
    (∃ ts, bothChecks 1 ((headerImage.set 81 1).set 85 4) = some ts) ∧
      storedHeaderCrc 1 ((headerImage.set 81 1).set 85 4) = some 0x4F54E5AB#32 ∧
      storedArrayCrc 1 ((headerImage.set 81 1).set 85 4) = some 0xAB54D286#32 := by
  refine ⟨⟨_, rfl⟩, ?_, ?_⟩ <;> decide

/-- The reset state, the empty history and a step that serves CRC.INIT. -/
theorem witness_StepKeepsTheHistory :
    (facingRequests [.port (command .crcInit)]).MeetsHistory [] ∧
      ∃ t, step (facingRequests [.port (command .crcInit)]) = .next t := by
  refine ⟨⟨rfl, rfl, ?_, ?_, ?_⟩, _, rfl⟩
  · decide
  · exact fun _ => rfl
  · intro before after x h
    simp at h

/-- Fields, an entry with both GUIDs, and an index beyond the entries. -/
theorem witness_GuidsStandWhereTheLayoutSays :
    entriesImage.field (1 + 72) 8 = some 93 ∧ entriesImage.field (1 + 80) 4 = some 2 ∧
      entriesImage.field (1 + 84) 4 = some 32 ∧ 0 < 2 ∧ 1 < 2 ∧ 2 ≤ 2 := by decide +kernel

theorem witness_ImageGuidsAreDecodedThroughTheBlock :
    (∃ ts, decodeDiskGuid 1 headerImage = some ts) ∧ ∃ ts, decodeEntryGuids 1 entriesImage 1 = some ts :=
  ⟨Option.isSome_iff_exists.1 (by decide +kernel), Option.isSome_iff_exists.1 (by decide +kernel)⟩

/-- All 16 bytes of disk_guid are covered. -/
theorem witness_HeaderChecksumTakesTheOnDiskGuid :
    (headerChecksumBytes 1 headerImage).map List.length = some 92 ∧ diskGuid 1 headerImage = some onDiskGuid ∧
      56 + 15 < 92 := by decide

end Sys2Proof.Tests
end

section
/-! PROOFS. The scope of the block (00_scope.md): what a step does when the host issues nothing. -/

namespace Sys2Proof.Machine

/-- Settles O14: the empty list of requests is the first branch of a step's case split on the oldest
request, which `step_nil` states. -/
theorem blockWaitsForTheHost : Obligations.BlockWaitsForTheHost := by
  unfold Obligations.BlockWaitsForTheHost
  exact step_nil

end Sys2Proof.Machine
end

section
/-! PROOFS. The state (10_state.md): what each command and each transaction leaves unchanged, which state
decides what the host will read, and what Reset gives. -/

namespace Sys2Proof.Machine

/-! ### What a command leaves unchanged (R16 to R18) -/

theorem bufferIndex_injective : Function.Injective bufferIndex :=
  fun _ _ h => BitVec.eq_of_toFin_eq h

/-- Only CRC.INIT and CRC.FEED write ACC. -/
theorem performedState_acc_of_ne (i : Instr) (s : State) (hinit : i ≠ .crcInit) (hfeed : ∀ b, i ≠ .crcFeed b) :
    (performedState i s).acc = s.acc := by
  cases i with
  | nop => rfl
  | crcInit => exact absurd rfl hinit
  | crcFeed b => exact absurd rfl (hfeed b)
  | guidLd k b => exact State.setGin_acc s k b
  | guidDec => exact State.setGout_acc s _
  | guidEnc => exact State.setGout_acc s _

/-- Only GUID.LD with IDX = j writes GIN[j]. -/
theorem performedState_gin_of_ne (i : Instr) (s : State) (j : Index4) (hload : ∀ b, i ≠ .guidLd j b) :
    (performedState i s).gin[bufferIndex j] = s.gin[bufferIndex j] := by
  cases i with
  | nop => rfl
  | crcInit => simp [performedState]
  | crcFeed b => simp [performedState]
  | guidLd k b =>
    have hkj : j ≠ k := fun e => hload b (e ▸ rfl)
    exact setGin_getElem_other s k b _ (bufferIndex_injective.ne hkj)
  | guidDec => simp [performedState]
  | guidEnc => simp [performedState]

/-- Only GUID.DEC and GUID.ENC write GOUT. -/
theorem performedState_gout_of_ne (i : Instr) (s : State) (hdec : i ≠ .guidDec) (henc : i ≠ .guidEnc) :
    (performedState i s).gout = s.gout := by
  cases i with
  | nop => rfl
  | crcInit => exact State.setAcc_gout s _
  | crcFeed b => exact State.setAcc_gout s _
  | guidLd k b => exact State.setGin_gout s k b
  | guidDec => exact absurd rfl hdec
  | guidEnc => exact absurd rfl henc

/-- Settles O29: the next state of a command is `performedState`, whose frame lemmas are the clauses. -/
theorem commandFrame : Obligations.CommandFrame := by
  unfold Obligations.CommandFrame
  intro i s t h
  rw [exec_eq] at h
  cases h
  exact ⟨performedState_ill i s, performedState_pending i s, performedState_reads i s,
    performedState_acc_of_ne i s, performedState_gin_of_ne i s, performedState_gout_of_ne i s⟩

/-! ### Who writes each element, over every transaction (R16 to R19) -/

theorem served_acc_ne (x : Transaction) (s : State) (h : (served x s).acc ≠ s.acc) :
    isReset x = true ∨ performed x = some .crcInit ∨ ∃ b, performed x = some (.crcFeed b) := by
  rcases served_cases x s with
    ⟨i, hi, -, -, hs⟩ | ⟨-, -, -, hs⟩ | ⟨-, -, hr, -⟩ | ⟨_, -, hs⟩ | ⟨_, _, -, -, hs⟩
  · by_contra! hnone
    obtain ⟨-, hinit, hfeed⟩ := hnone
    rw [hi] at hinit hfeed
    exact h (hs ▸ performedState_acc_of_ne i s (by simpa using hinit) (by simpa using hfeed))
  · exact absurd (hs ▸ raiseIllegalCommand_acc s) h
  · exact .inl hr
  · exact absurd (hs ▸ State.observe_acc s _) h
  · exact absurd (congrArg State.acc hs) h

theorem served_gin_ne (x : Transaction) (s : State) (j : Index4)
    (h : (served x s).gin[bufferIndex j] ≠ s.gin[bufferIndex j]) :
    isReset x = true ∨ ∃ b, performed x = some (.guidLd j b) := by
  rcases served_cases x s with
    ⟨i, hi, -, -, hs⟩ | ⟨-, -, -, hs⟩ | ⟨-, -, hr, -⟩ | ⟨_, -, hs⟩ | ⟨_, _, -, -, hs⟩
  · by_contra! hnone
    obtain ⟨-, hload⟩ := hnone
    rw [hi] at hload
    exact h (hs ▸ performedState_gin_of_ne i s j (by simpa using hload))
  · exact absurd (by rw [hs, raiseIllegalCommand_gin]) h
  · exact .inl hr
  · exact absurd (by rw [hs, State.observe_gin]) h
  · exact absurd (by rw [hs]) h

theorem served_gout_ne (x : Transaction) (s : State) (h : (served x s).gout ≠ s.gout) :
    isReset x = true ∨ transcodes x = true := by
  rcases served_cases x s with
    ⟨i, hi, -, -, hs⟩ | ⟨-, -, -, hs⟩ | ⟨-, -, hr, -⟩ | ⟨_, -, hs⟩ | ⟨_, _, -, -, hs⟩
  · by_contra! hnone
    obtain ⟨-, htrans⟩ := hnone
    obtain ⟨hdec, henc⟩ : i ≠ .guidDec ∧ i ≠ .guidEnc := by simpa [transcodes, hi] using htrans
    exact h (hs ▸ performedState_gout_of_ne i s hdec henc)
  · exact absurd (hs ▸ raiseIllegalCommand_gout s) h
  · exact .inl hr
  · exact absurd (hs ▸ State.observe_gout s _) h
  · exact absurd (congrArg State.gout hs) h

theorem served_ill_ne (x : Transaction) (s : State) (h : (served x s).ill ≠ s.ill) :
    (isReset x = true ∧ (served x s).ill = false) ∨ (writesIllegal x = true ∧ (served x s).ill = true) := by
  rcases served_cases x s with
    ⟨i, -, -, -, hs⟩ | ⟨-, hw, -, hs⟩ | ⟨-, -, hr, hs⟩ | ⟨_, -, hs⟩ | ⟨_, _, -, -, hs⟩
  · exact absurd (hs ▸ performedState_ill i s) h
  · exact .inr ⟨hw, hs ▸ raiseIllegalCommand_ill s⟩
  · exact .inl ⟨hr, hs ▸ resetBlock_ill s⟩
  · exact absurd (hs ▸ State.observe_ill s _) h
  · exact absurd (congrArg State.ill hs) h

/-- Settles O30: the step serves the one transaction, and each clause is the lemma for its element. -/
theorem whoWritesEachElement : Obligations.WhoWritesEachElement := by
  unfold Obligations.WhoWritesEachElement
  intro s t x h
  rw [step_facing_cons] at h
  cases h
  exact ⟨served_acc_ne x s, served_gin_ne x s, served_gout_ne x s, served_ill_ne x s⟩

/-! ### What was read before does not matter (R25) -/

/-- A request that is a port transaction serves it. -/
theorem serve_of_transaction (r : HostRequest) (x : Transaction) (s : State) (h : r.transaction = some x) :
    serve r s = transact x s := by
  cases r with
  | port y =>
    cases h
    exact serve_port x s
  | bus a => exact serve_bus_some a x s h

/-- Any other request is refused. -/
theorem serve_of_no_transaction (r : HostRequest) (s : State) (h : r.transaction = none) :
    serve r s = .refused .notAWholeAlignedWord := by
  cases r with
  | port y => simp [HostRequest.transaction] at h
  | bus a => exact serve_bus_none a s h

/-- Two outcomes that answer alike, from states whose words read are `r` and `r'`: both refuse for one
reason, or both go on, to states that differ only in that one began at `r` and the other at `r'`. -/
def Result.AnswerAlike (r r' : List Word) (o o' : Result) : Prop :=
  (∃ (t : State) (new : List Word), o = .next t ∧ t.reads = r ++ new ∧ o' = .next { t with reads := r' ++ new }) ∨
  (∃ e : Refusal, o = .refused e ∧ o' = .refused e)

/-- One step does not look at the words read before. -/
theorem step_answersAlike (s : State) (r' : List Word) :
    Result.AnswerAlike s.reads r' (step s) (step { s with reads := r' }) := by
  by_cases hp : s.pending = []
  · refine .inl ⟨s, [], step_nil s hp, (List.append_nil _).symm, ?_⟩
    rw [List.append_nil]
    exact step_nil { s with reads := r' } hp
  · obtain ⟨q, rest, hp⟩ := List.exists_cons_of_ne_nil hp
    rw [step_cons s q rest hp, step_cons { s with reads := r' } q rest hp]
    cases hq : q.transaction with
    | some x =>
      obtain ⟨t, new, hnext, hpend, hreads, hother⟩ := transact_withHost x { s with pending := rest } rest r'
      refine .inl ⟨t, new, (serve_of_transaction q x _ hq).trans hnext, hreads,
        (serve_of_transaction q x _ hq).trans (hother.trans ?_)⟩
      rw [show rest = t.pending from hpend.symm]
    | none => exact .inr ⟨_, serve_of_no_transaction q _ hq, serve_of_no_transaction q _ hq⟩

/-- Nor does a run. -/
theorem runSteps_answersAlike (n : Nat) (s : State) (r' : List Word) :
    Result.AnswerAlike s.reads r' (runSteps n s) (runSteps n { s with reads := r' }) := by
  induction n generalizing s r' with
  | zero => exact .inl ⟨s, [], rfl, by simp, by simp [runSteps]⟩
  | succ n ih =>
    rcases step_answersAlike s r' with ⟨t, first, hstep, hreads, hstep'⟩ | ⟨e, hstep, hstep'⟩
    · simp only [runSteps, hstep, hstep']
      rcases ih t (r' ++ first) with ⟨u, later, hrun, hlater, hrun'⟩ | ⟨e, hrun, hrun'⟩
      · exact .inl ⟨u, first ++ later, hrun, by rw [hlater, hreads, List.append_assoc],
          by rw [hrun', List.append_assoc]⟩
      · exact .inr ⟨e, hrun, hrun'⟩
    · exact .inr ⟨e, by simp only [runSteps, hstep], by simp only [runSteps, hstep']⟩

/-- Settles O39: states that agree on the four elements and on the requests differ only in the words read
before, which no run looks at. -/
theorem fourElementsDetermineObservations : Obligations.FourElementsDetermineObservations := by
  unfold Obligations.FourElementsDetermineObservations
  intro n s s' hacc hgin hgout hill hpending
  have hs' : s' = { s with reads := s'.reads } := by
    cases s
    cases s'
    simp_all
  have halike := runSteps_answersAlike n s s'.reads
  rw [← hs'] at halike
  rcases halike with ⟨u, new, hrun, hreads, hrun'⟩ | ⟨e, hrun, hrun'⟩
  · refine ⟨fun t ht => ?_, fun r hr => ?_⟩
    · cases hrun.symm.trans ht
      exact ⟨new, hreads, hrun'⟩
    · cases hrun.symm.trans hr
  · refine ⟨fun t ht => ?_, fun r hr => ?_⟩
    · cases hrun.symm.trans ht
    · cases hrun.symm.trans hr
      exact hrun'

/-! ### A command placed by the host (R22, R31) -/

theorem splitFields_encode (i : Instr) : splitFields (encode i) = ⟨opcodeOf i, 0#12, idxOf i, immOf i⟩ :=
  Laws.Format.splitFields_append _ _ _ _

/-- The decoder reads back the command that was encoded (R58): OP selects the branch of the command, and the
fields the command does not use are 0. -/
theorem decode_encode (i : Instr) : decode (encode i) = .command i := by
  unfold decode
  rw [splitFields_encode]
  cases i <;> simp [opcodeOf, idxOf, immOf, commandIf]

/-- A table row of 32 bits is the command word itself. -/
@[simp] theorem tableWord_toNat (w : Word) : tableWord 32 w.toNat = w := by
  rw [tableWord, Nat.mod_eq_of_lt w.isLt, BitVec.ofNat_toNat, BitVec.setWidth_eq]

/-- The next step serves the transaction issued ahead of every other. -/
theorem step_issueFirst (s : State) (x : Transaction) : step (s.issueFirst x) = transact x s :=
  step_cons _ (.port x) s.pending rfl

/-- Executing a word that decodes to a command performs the command (R90). -/
theorem execute_of_decode (w : Word) (s : State) (i : Instr) (h : decode w = .command i) :
    execute w s = exec i s := by
  simp [execute, h]

/-- Settles O8: the decoder reads the command back, and the next step is the Write of its word to CMD. -/
theorem fetchedWordRunsNext : Obligations.FetchedWordRunsNext := by
  unfold Obligations.FetchedWordRunsNext
  intro s i
  constructor
  · simp [decodeTableWord, decodeCommand, decode_encode]
  · rw [State.withFetchWord, tableWord_toNat, step_issueFirst]
    exact execute_of_decode _ s i (decode_encode i)

/-! ### The reset state (R26, R27, R110) -/

/-- Settles O20: Reset overwrites all four elements, and power-up leaves the host's lists empty. -/
theorem firstResetForgetsPowerUp : Obligations.FirstResetForgetsPowerUp := by
  unfold Obligations.FirstResetForgetsPowerUp
  rw [transact_eq]
  rfl

/-- The CRC of the empty buffer: the initial accumulator is the final XOR. -/
theorem crc32_nil : crc32 [] = 0#32 := by
  simp [crc32, crcResult, crcInitialAcc, crcFinalXor]

/-- Settles O21: CRC.INIT writes what ACC already holds, CRC_RES reads the CRC of the empty buffer,
and the other values are the fields of the reset state. -/
theorem resetStateValues : Obligations.ResetStateValues := by
  unfold Obligations.ResetStateValues
  refine ⟨rfl, ?_, ?_, rfl, rfl, ?_, crc32_nil⟩
  · intro j
    simp [State.reset]
  · intro j
    simp [State.reset]
  · calc portRead 3#4 State.reset = crc32 [] := rfl
      _ = 0#32 := crc32_nil

/-- Settles O41: ILL is 0, and there is no request to come. -/
theorem resetStateIsClean : Obligations.ResetStateIsClean := by
  unfold Obligations.ResetStateIsClean State.Clean
  exact ⟨rfl, fun r hr => absurd hr List.not_mem_nil⟩

/-- Settles O55: with no transaction nothing was fed, illegal, loaded or transcoded, so each clause asks for
the reset value. -/
theorem resetStateMeetsTheEmptyHistory : Obligations.ResetStateMeetsTheEmptyHistory := by
  unfold Obligations.ResetStateMeetsTheEmptyHistory State.MeetsHistory
  refine ⟨rfl, rfl, ?_, fun _ => rfl, ?_⟩
  · intro i
    simp [State.reset, lastLoaded, sinceLast]
  · intro before after x hsplit
    simp at hsplit

end Sys2Proof.Machine
end

section
/-! PROOFS. The port (20_memory.md): what a Write and a Read of each register do, the lanes of the buffer
words, which bus accesses reach the port, and what any step may do. -/

namespace Sys2Proof.Machine

/-! ### Writes (R31) -/

theorem transact_write_cmd (w : Word) (s : State) : transact (.write 0#4 w) s = execute w s := by
  simp [transact, portWrite]

theorem transact_write_of_ne_cmd (widx : Index4) (w : Word) (s : State) (h : widx ≠ 0#4) :
    transact (.write widx w) s = .next s := by
  simp [transact, portWrite, h]

/-- Settles O9: the two branches of a Write. -/
theorem writeExecutesOnlyAtCmd : Obligations.WriteExecutesOnlyAtCmd := by
  unfold Obligations.WriteExecutesOnlyAtCmd
  intro s widx w
  constructor
  · rintro rfl
    exact transact_write_cmd w s
  · exact transact_write_of_ne_cmd widx w s

/-! ### Reads (R30, R32, R33) -/

theorem portReg_ginW (k : Fin 4) : portReg (4#4 + BitVec.ofNat 4 k.val) = .ginW k := by
  decide +revert

theorem portReg_goutW (k : Fin 4) : portReg (8#4 + BitVec.ofNat 4 k.val) = .goutW k := by
  decide +revert

theorem portReg_reserved (widx : Index4) (h : 12 ≤ widx.toNat) : ∃ k, portReg widx = .reserved k := by
  decide +revert

/-- A Read at the word index of a row of the register map returns the word of the row's register. -/
theorem portRead_of_row {widx k : Index4} (s : State) (r : PortReg) (hrow : portReg k = r) (h : widx = k) :
    portRead widx s = readRegister r s := by
  rw [h, portRead, hrow]

/-- The STATUS word is ILL as a number (R24). -/
theorem statusWord_eq_ite (ill : Bool) : statusWord ill = if ill then 1#32 else 0#32 := by
  cases ill <;> rfl

/-- Settles O10: a Read hands over `portRead`, and each clause is the row of the register map (R30) that
its word index names. -/
theorem readReturnsTheMappedWord : Obligations.ReadReturnsTheMappedWord := by
  unfold Obligations.ReadReturnsTheMappedWord
  intro s widx
  refine ⟨portRead widx s, rfl,
    portRead_of_row s .cmd rfl,
    fun h => (portRead_of_row s .status rfl h).trans (statusWord_eq_ite s.ill),
    portRead_of_row s .crcAcc rfl,
    portRead_of_row s .crcRes rfl,
    portRead_of_row s (.ginW 0) rfl, portRead_of_row s (.ginW 1) rfl,
    portRead_of_row s (.ginW 2) rfl, portRead_of_row s (.ginW 3) rfl,
    portRead_of_row s (.goutW 0) rfl, portRead_of_row s (.goutW 1) rfl,
    portRead_of_row s (.goutW 2) rfl, portRead_of_row s (.goutW 3) rfl, ?_⟩
  intro hreserved
  obtain ⟨k, hk⟩ := portReg_reserved widx hreserved
  exact portRead_of_row s (.reserved k) hk rfl

/-- Byte lane `j` of a word is the `j`-th of its bytes. -/
theorem wordBytes_getElem? (w : Word) (j : Fin 4) :
    (wordBytes w)[j.val]? = some (w.extractLsb' (8 * j.val) 8) := by
  fin_cases j <;> rfl

/-- Byte lane `j` of buffer word `k` is byte 4k+j (R33). -/
theorem laneWord_extractLsb' (x : Buffer) (k j : Fin 4) :
    (laneWord x k).extractLsb' (8 * j.val) 8 = x[4 * k.val + j.val] := by
  have hlane := wordBytes_getElem? (laneWord x k) j
  rw [wordBytes_laneWord] at hlane
  fin_cases j <;> exact (Option.some.inj hlane).symm

/-- Settles O11: word indices 4+k and 8+k name the buffer words, whose lanes are the buffer's bytes. -/
theorem bufferLanesAreLittleEndian : Obligations.BufferLanesAreLittleEndian := by
  unfold Obligations.BufferLanesAreLittleEndian
  intro s k j
  rw [portRead_of_row s _ (portReg_ginW k) rfl, portRead_of_row s _ (portReg_goutW k) rfl]
  exact ⟨laneWord_extractLsb' s.gin k j, laneWord_extractLsb' s.gout k j⟩

/-! ### Reads after Reads (R39) -/

/-- What a Read returns does not depend on the words read before. -/
@[simp] theorem portRead_withReads (widx : Index4) (s : State) (r : List Word) :
    portRead widx { s with reads := r } = portRead widx s := by
  unfold portRead
  cases portReg widx <;> rfl

/-- A list of Reads hands over the words the registers hold now, and changes nothing of the block. -/
theorem servedAll_map_read (widxs : List Index4) (s : State) :
    servedAll (widxs.map .read) s = { s with reads := s.reads ++ widxs.map (portRead · s) } := by
  induction widxs generalizing s with
  | nil => simp [servedAll]
  | cons widx widxs ih =>
    calc servedAll ((widx :: widxs).map .read) s
      _ = servedAll (widxs.map .read) (s.observe (portRead widx s)) := rfl
      _ = { s with reads := s.reads ++ (widx :: widxs).map (portRead · s) } := by
        rw [ih]
        simp [State.observe]

/-- Settles O12: the first and the last Read of the list find the block as it was at the start. -/
theorem readsAreIdempotent : Obligations.ReadsAreIdempotent := by
  unfold Obligations.ReadsAreIdempotent
  intro s widx between
  refine ⟨_, portRead widx s, between.map (portRead · s), ?_, List.length_map _, rfl⟩
  have hall : Transaction.read widx :: between.map .read ++ [.read widx]
      = (widx :: between ++ [widx]).map .read := by simp
  have hrun := runSteps_facing ((widx :: between ++ [widx]).map .read) s
  rw [servedAll_map_read, ← hall] at hrun
  simpa using hrun

/-! ### Bus accesses (R29, R38) -/

/-- The two low bits of an offset are 0 exactly on a word boundary. -/
theorem offset_aligned_iff (offset : BitVec 6) : offset.extractLsb' 0 2 = 0#2 ↔ offset.toNat % 4 = 0 := by
  rw [← BitVec.toNat_inj]
  simp [BitVec.extractLsb'_toNat]

theorem wholeAlignedWord_eq_false (a : BusAccess)
    (h : a.size ≠ .word ∨ a.enables ≠ 0xF#4 ∨ a.offset.toNat % 4 ≠ 0) : wholeAlignedWord a = false := by
  rw [← Bool.not_eq_true]
  intro hwhole
  simp only [wholeAlignedWord, Bool.and_eq_true, beq_iff_eq, offset_aligned_iff] at hwhole
  obtain ⟨⟨hsize, henables⟩, haligned⟩ := hwhole
  rcases h with h | h | h
  · exact h hsize
  · exact h henables
  · exact h haligned

/-- The register at byte offset 4*WIDX is WIDX. -/
theorem widxOfOffset_of_toNat (offset : BitVec 6) (widx : Index4) (h : offset.toNat = 4 * widx.toNat) :
    widxOfOffset offset = widx := by
  apply BitVec.eq_of_toNat_eq
  have hlt := widx.isLt
  simp only [widxOfOffset, BitVec.extractLsb'_toNat, Nat.shiftRight_eq_div_pow]
  omega

/-- A whole word access at offset 4*WIDX is the port transaction of its direction at WIDX. -/
theorem busTransaction_at (offset : BitVec 6) (widx : Index4) (op : BusOp) (h : offset.toNat = 4 * widx.toNat) :
    busTransaction ⟨offset, .word, 0xF#4, op⟩ = some (wordTransaction widx op) := by
  have haligned : offset.extractLsb' 0 2 = 0#2 := (offset_aligned_iff offset).2 (by omega)
  rw [busTransaction_whole offset op haligned, widxOfOffset_of_toNat offset widx h]

/-- A step serves a bus access that is a port transaction as it serves that transaction. -/
theorem step_bus_eq_step_port (s : State) (rest : List HostRequest) (a : BusAccess) (x : Transaction)
    (h : busTransaction a = some x) :
    step { s with pending := .bus a :: rest } = step { s with pending := .port x :: rest } := by
  rw [step_cons _ (.bus a) rest rfl, step_cons _ (.port x) rest rfl, serve_bus_some a x _ h, serve_port]

/-- Settles O13: an access that fails one of the three checks is no port transaction; a whole aligned word
is the one at the register its offset names. -/
theorem onlyWholeAlignedWordsReachThePort : Obligations.OnlyWholeAlignedWordsReachThePort := by
  unfold Obligations.OnlyWholeAlignedWordsReachThePort
  intro s rest
  constructor
  · intro a h
    rw [step_cons _ (.bus a) rest rfl]
    exact serve_bus_none a _ (busTransaction_none a (wholeAlignedWord_eq_false a h))
  · intro offset widx h
    exact ⟨fun w => step_bus_eq_step_port s rest _ _ (busTransaction_at offset widx (.write w) h),
      step_bus_eq_step_port s rest _ _ (busTransaction_at offset widx .read h)⟩

/-! ### What any step may do (R32, R39, R40) -/

/-- A step that gives a next state waited with no request left, or served the transaction of the oldest
request. -/
theorem step_next_cases (s t : State) (h : step s = .next t) :
    (s.pending = [] ∧ t = s) ∨
    (∃ q rest x, s.pending = q :: rest ∧ q.transaction = some x ∧ t = served x { s with pending := rest }) := by
  cases hp : s.pending with
  | nil =>
    rw [step_nil s hp] at h
    cases h
    exact .inl ⟨rfl, rfl⟩
  | cons q rest =>
    rw [step_cons s q rest hp] at h
    cases hq : q.transaction with
    | some x =>
      rw [serve_of_transaction q x _ hq, transact_eq] at h
      cases h
      exact .inr ⟨q, rest, x, rfl, hq, rfl⟩
    | none =>
      rw [serve_of_no_transaction q _ hq] at h
      cases h

/-- A transaction hands over no word, or it is a Read and only hands over its word. -/
theorem served_reads_cases (x : Transaction) (s : State) :
    (served x s).reads = s.reads ∨ ∃ w, served x s = s.observe w := by
  rcases served_cases x s with
    ⟨i, -, -, -, hs⟩ | ⟨-, -, -, hs⟩ | ⟨-, -, -, hs⟩ | ⟨widx, -, hs⟩ | ⟨_, _, -, -, hs⟩
  · exact .inl (hs ▸ performedState_reads i s)
  · exact .inl (hs ▸ raiseIllegalCommand_reads s)
  · exact .inl (hs ▸ resetBlock_reads s)
  · exact .inr ⟨_, hs⟩
  · exact .inl (congrArg State.reads hs)

/-- Settles O15: a step waits or serves one transaction, and only a Read hands over a word. -/
theorem stepMeetsOneRequest : Obligations.StepMeetsOneRequest := by
  unfold Obligations.StepMeetsOneRequest
  intro s t h
  rcases step_next_cases s t h with ⟨hp, rfl⟩ | ⟨q, rest, x, hp, -, rfl⟩
  · exact ⟨by simp [hp], .inl rfl⟩
  · refine ⟨by rw [served_pending, hp, List.tail_cons], ?_⟩
    rcases served_reads_cases x { s with pending := rest } with hreads | ⟨w, hs⟩
    · exact .inl hreads
    · rw [hs]
      exact .inr ⟨w, rfl, rfl, rfl, rfl, rfl⟩

end Sys2Proof.Machine
end

section
/-! PROOFS. Encoding (30_encoding.md): a word decodes to a command exactly when it is that command's word
(R58), so a word is illegal exactly when it is no command's word (R51, R52, R55), and the legal words are as
many as the commands (R54); the words of the assembly lines and of the pseudo-instructions (R59, R60). -/

namespace Sys2Proof.Machine

/-! ### decode and encode are inverse (R58) -/

/-- The four fields of a word, put back together, are the word (R47). -/
theorem append_splitFields (w : Word) :
    (splitFields w).op ++ (splitFields w).rsv ++ (splitFields w).idx ++ (splitFields w).imm = w := by
  apply BitVec.eq_of_getLsbD_eq
  intro k hk
  rw [Laws.Format.append_getLsbD]
  simp only [splitFields, BitVec.getLsbD_extractLsb']
  split_ifs with himm hidx hrsv
  · simp [himm]
  · simp [show k - 8 < 4 by omega, show 8 + (k - 8) = k by omega]
  · simp [show k - 12 < 12 by omega, show 12 + (k - 12) = k by omega]
  · simp [show k - 24 < 8 by omega, show 24 + (k - 24) = k by omega]

/-- A word whose fields are those of a command is the command's word. -/
theorem encode_eq_of_splitFields {w : Word} {i : Instr}
    (h : splitFields w = ⟨opcodeOf i, 0#12, idxOf i, immOf i⟩) : encode i = w := by
  rw [← append_splitFields w, h, encode]

theorem commandIf_eq_command_iff (c : Bool) (i k : Instr) :
    commandIf c i = .command k ↔ c = true ∧ i = k := by
  cases c <;> simp [commandIf]

/-- A word decodes to a command only in the branch of the command's OP, where RSV and the fields the
command does not use are 0 (R53). -/
theorem splitFields_of_decode {w : Word} {i : Instr} (h : decode w = .command i) :
    splitFields w = ⟨opcodeOf i, 0#12, idxOf i, immOf i⟩ := by
  unfold decode at h
  generalize splitFields w = f at h ⊢
  obtain ⟨op, rsv, idx, imm⟩ := f
  dsimp only at h
  split_ifs at h with hrsv hnop hinit hfeed hld hdec henc
  all_goals
    obtain rfl := not_not.1 hrsv
    subst op
    simp only [commandIf_eq_command_iff, Bool.and_eq_true, beq_iff_eq, Decoded.command.injEq] at h
  · obtain ⟨⟨rfl, rfl⟩, rfl⟩ := h
    rfl
  · obtain ⟨⟨rfl, rfl⟩, rfl⟩ := h
    rfl
  · obtain ⟨rfl, rfl⟩ := h
    rfl
  · obtain rfl := h
    rfl
  · obtain ⟨⟨rfl, rfl⟩, rfl⟩ := h
    rfl
  · obtain ⟨⟨rfl, rfl⟩, rfl⟩ := h
    rfl

/-- A word decodes to a command exactly when it is the command's word. -/
theorem decode_eq_command_iff (w : Word) (i : Instr) : decode w = .command i ↔ encode i = w :=
  ⟨fun h => encode_eq_of_splitFields (splitFields_of_decode h), fun h => h ▸ decode_encode i⟩

/-- Settles O1: the decoder reads back the fields the encoder wrote, and the fields of a legal word are those
of its command. -/
theorem encodeAndDecodeAreInverse : Obligations.EncodeAndDecodeAreInverse := by
  unfold Obligations.EncodeAndDecodeAreInverse
  exact ⟨fun i => ⟨rfl, decode_encode i⟩, fun w i => (decode_eq_command_iff w i).1⟩

/-! ### Which words are illegal (R51, R52, R55) -/

/-- A word is legal exactly when it is the word of a command. -/
theorem isIllegal_eq_false_iff (w : Word) : isIllegal w = false ↔ ∃ i, encode i = w := by
  simp only [← decode_eq_command_iff]
  cases h : decode w <;> simp [isIllegal, decodeCommand, h]

/-- The fields of every command's word pass the check of format C. -/
theorem wellFormed_encode (i : Instr) : (splitFields (encode i)).wellFormed = true := by
  cases i with
  | nop => exact Laws.Format.nop.2
  | crcInit => exact Laws.Format.crcInit.2
  | crcFeed b => exact (Laws.Format.crcFeed b).2
  | guidLd k b => exact (Laws.Format.guidLd k b).2
  | guidDec => exact Laws.Format.guidDec.2
  | guidEnc => exact Laws.Format.guidEnc.2

/-- The check of format C, field by field. -/
theorem wellFormed_iff (f : FormatC) :
    f.wellFormed = true ↔
      f.rsv = 0#12 ∧ f.op ∈ [0x00#8, 0x01#8, 0x02#8, 0x10#8, 0x11#8, 0x12#8] ∧
      (f.op = 0x10#8 ∨ f.idx = 0#4) ∧ (f.op = 0x02#8 ∨ f.op = 0x10#8 ∨ f.imm = 0#8) := by
  simp only [FormatC.wellFormed, FormatC.rsvOk, FormatC.opOk, FormatC.idxOk, FormatC.immOk, Bool.and_eq_true,
    Bool.or_eq_true, beq_iff_eq, List.contains_iff_mem, and_assoc, or_assoc]

/-- Fields that pass the check are those of the command their OP names. -/
theorem exists_instr_of_wellFormed (f : FormatC) (h : f.wellFormed = true) :
    ∃ i, f = ⟨opcodeOf i, 0#12, idxOf i, immOf i⟩ := by
  obtain ⟨op, rsv, idx, imm⟩ := f
  obtain ⟨hrsv, hop, hidx, himm⟩ := (wellFormed_iff _).1 h
  obtain rfl : rsv = 0#12 := hrsv
  simp only [List.mem_cons, List.not_mem_nil, or_false] at hop
  rcases hop with rfl | rfl | rfl | rfl | rfl | rfl <;>
    simp only [BitVec.reduceEq, false_or, true_or] at hidx himm
  · exact ⟨.nop, by rw [hidx, himm]; rfl⟩
  · exact ⟨.crcInit, by rw [hidx, himm]; rfl⟩
  · exact ⟨.crcFeed imm, by rw [hidx]; rfl⟩
  · exact ⟨.guidLd idx imm, rfl⟩
  · exact ⟨.guidDec, by rw [hidx, himm]; rfl⟩
  · exact ⟨.guidEnc, by rw [hidx, himm]; rfl⟩

/-- The decoder and the independent check of format C agree. -/
theorem isIllegal_eq_not_wellFormed (w : Word) : isIllegal w = !(splitFields w).wellFormed := by
  rw [← Bool.not_eq_eq_eq_not, Bool.eq_iff_iff, Bool.not_eq_true', isIllegal_eq_false_iff]
  constructor
  · rintro ⟨i, rfl⟩
    exact wellFormed_encode i
  · intro h
    obtain ⟨i, hi⟩ := exists_instr_of_wellFormed _ h
    exact ⟨i, encode_eq_of_splitFields hi⟩

/-- Settles O3: the decoder agrees with the check of format C, and the conditions listed are the negation of
that check. -/
theorem illegalWordsAreExactlyThese : Obligations.IllegalWordsAreExactlyThese := by
  unfold Obligations.IllegalWordsAreExactlyThese
  intro w
  refine ⟨?_, isIllegal_eq_not_wellFormed w⟩
  rw [isIllegal_eq_not_wellFormed, Bool.not_eq_true', ← Bool.not_eq_true, wellFormed_iff]
  simp only [splitFields, not_and_or, not_or, ne_eq]

/-! ### The census (R54) -/

theorem encode_injective : Function.Injective encode := fun i k h => by
  have hdec : Decoded.command i = .command k := by rw [← decode_encode i, h, decode_encode]
  simpa using hdec

/-- The words of a family of different commands are as many as its commands. -/
theorem card_words {α : Type} (f : α → Instr) (hf : Function.Injective f) :
    Nat.card {w : Word // ∃ a, decode w = .command (f a)} = Nat.card α := by
  simp only [decode_eq_command_iff]
  exact Nat.card_congr (Equiv.ofInjective (encode ∘ f) (encode_injective.comp hf)).symm

/-- A single command has one word. -/
theorem card_words_of_command (i : Instr) : Nat.card {w : Word // decode w = .command i} = 1 := by
  simpa using card_words (fun _ : Unit => i) (Function.injective_of_subsingleton _)

theorem card_bitVec (n : Nat) : Nat.card (BitVec n) = 2 ^ n := by
  rw [Nat.card_congr BitVec.equivFin.toEquiv, Nat.card_fin]

/-- The commands by their operands, in the order of R48. -/
def instrOperands : Instr ≃ Unit ⊕ Unit ⊕ Byte ⊕ (Index4 × Byte) ⊕ Unit ⊕ Unit where
  toFun
    | .nop => .inl ()
    | .crcInit => .inr (.inl ())
    | .crcFeed b => .inr (.inr (.inl b))
    | .guidLd i b => .inr (.inr (.inr (.inl (i, b))))
    | .guidDec => .inr (.inr (.inr (.inr (.inl ()))))
    | .guidEnc => .inr (.inr (.inr (.inr (.inr ()))))
  invFun
    | .inl () => .nop
    | .inr (.inl ()) => .crcInit
    | .inr (.inr (.inl b)) => .crcFeed b
    | .inr (.inr (.inr (.inl (i, b)))) => .guidLd i b
    | .inr (.inr (.inr (.inr (.inl ())))) => .guidDec
    | .inr (.inr (.inr (.inr (.inr ())))) => .guidEnc
  left_inv i := by cases i <;> rfl
  right_inv x := by rcases x with _ | _ | _ | _ | _ | _ <;> rfl

theorem card_instr : Nat.card Instr = 4356 := by
  rw [Nat.card_congr instrOperands]
  simp only [Nat.card_sum, Nat.card_prod, Nat.card_unique, card_bitVec, Nat.reducePow, Nat.reduceMul, Nat.reduceAdd]

theorem card_legal : Nat.card {w : Word // isIllegal w = false} = 4356 := by
  simp only [isIllegal_eq_false_iff, ← decode_eq_command_iff]
  exact (card_words id Function.injective_id).trans card_instr

/-- The legal and the illegal words are all 2^32 words. -/
theorem card_legal_add_card_illegal :
    Nat.card {w : Word // isIllegal w = false} + Nat.card {w : Word // isIllegal w = true} = 2 ^ 32 := by
  rw [← card_bitVec 32, ← Nat.card_congr (Equiv.sumCompl fun w : Word => isIllegal w = false), Nat.card_sum]
  simp only [Bool.not_eq_false]

theorem portWrite_cmd_of_illegal (w : Word) (s : State) (h : isIllegal w = true) :
    portWrite 0#4 w s = .next (raiseIllegalCommand s) := by
  have hw : writesIllegal (.write 0#4 w) = true := by simp [writesIllegal, h]
  rw [← served_of_illegal _ s hw]
  exact transact_eq (.write 0#4 w) s

/-- Settles O4: the words of each family are counted by its commands, since encode is injective, and the
illegal words are the rest of the 2^32. -/
theorem legalWordCensus : Obligations.LegalWordCensus := by
  unfold Obligations.LegalWordCensus
  refine ⟨card_words_of_command _, card_words_of_command _, ?_, ?_, card_words_of_command _,
    card_words_of_command _, card_legal, ?_, portWrite_cmd_of_illegal⟩
  · rw [card_words Instr.crcFeed fun _ _ => Instr.crcFeed.inj, card_bitVec]
    rfl
  · have hinj : Function.Injective fun p : Index4 × Byte => Instr.guidLd p.1 p.2 :=
      fun p q h => Prod.ext_iff.2 (Instr.guidLd.inj h)
    have hcard := card_words _ hinj
    simpa only [Prod.exists, Nat.card_prod, card_bitVec, Nat.reducePow, Nat.reduceMul] using hcard
  · have hsum := card_legal_add_card_illegal
    rw [card_legal] at hsum
    omega

/-! ### The words of the table and of the assembly (R48, R59) -/

/-- A command's word as its fields shifted into place. -/
theorem encode_eq_or (i : Instr) :
    encode i = (opcodeOf i).setWidth 32 <<< 24 ||| (idxOf i).setWidth 32 <<< 8 ||| (immOf i).setWidth 32 := by
  apply BitVec.eq_of_getLsbD_eq
  intro k hk
  have hsub (n : Nat) : k - n < 32 := by omega
  rw [encode, Laws.Format.append_getLsbD]
  simp only [BitVec.getLsbD_or, BitVec.getLsbD_shiftLeft, BitVec.getLsbD_setWidth, BitVec.getLsbD_zero, hk, hsub]
  split_ifs with himm hidx hrsv
  · simp [himm, show k < 24 by omega]
  · simp [himm, show k < 24 by omega, BitVec.getLsbD_of_ge (immOf i) k (by omega)]
  · simp [hrsv, BitVec.getLsbD_of_ge (immOf i) k (by omega), BitVec.getLsbD_of_ge (idxOf i) (k - 8) (by omega)]
  · simp [hrsv, BitVec.getLsbD_of_ge (immOf i) k (by omega), BitVec.getLsbD_of_ge (idxOf i) (k - 8) (by omega)]

/-- Settles O2: each word is its fields shifted into place. -/
theorem commandWordsOfTheTable : Obligations.CommandWordsOfTheTable := by
  unfold Obligations.CommandWordsOfTheTable
  refine ⟨by decide, by decide, fun b => ?_, fun i b => ?_, by decide, by decide⟩
  · rw [encode_eq_or]
    simp [opcodeOf, idxOf, immOf]
  · rw [encode_eq_or]
    simp [opcodeOf, idxOf, immOf]

/-- Settles O47: a line in range is the Write of its command's word, whose operands stand in its fields as
the numbers written; a line out of range is none. -/
theorem assemblyWords : Obligations.AssemblyWords := by
  obtain ⟨-, -, hfeed, hld, -, -⟩ := commandWordsOfTheTable
  unfold Obligations.AssemblyWords
  refine ⟨by decide, by decide, fun b => ?_, fun i b => ?_, by decide, by decide⟩
  · by_cases hb : b < 256
    · have hword : (BitVec.ofNat 8 b).setWidth 32 = BitVec.ofNat 32 b :=
        BitVec.setWidth_ofNat_of_le_of_lt (by decide) hb
      simp [assembleLine, AsmLine.inRange, byteInRange, AsmLine.expand, feedAll, command, hb, hfeed, hword]
    · simp [assembleLine, AsmLine.inRange, byteInRange, hb]
  · by_cases hrange : i < 16 ∧ b < 256
    · have hi : (BitVec.ofNat 4 i).setWidth 32 = BitVec.ofNat 32 i :=
        BitVec.setWidth_ofNat_of_le_of_lt (by decide) hrange.1
      have hb : (BitVec.ofNat 8 b).setWidth 32 = BitVec.ofNat 32 b :=
        BitVec.setWidth_ofNat_of_le_of_lt (by decide) hrange.2
      simp [assembleLine, AsmLine.inRange, byteInRange, AsmLine.expand, loadAll, command, hrange, hld, hi, hb]
    · simp [assembleLine, AsmLine.inRange, byteInRange, hrange]

/-! ### The pseudo-instructions (R60) -/

theorem feedAll_eq_flatMap (bs : List Nat) : feedAll bs = bs.flatMap fun b => (AsmLine.crcFeed b).expand :=
  List.map_eq_flatMap

/-- The loads from index `i` on are the loads of each byte to the index where it stands. -/
theorem loadAll_eq_flatMap (i : Nat) (bs : List Nat) :
    loadAll i bs = (bs.zipIdx i).flatMap fun p => (AsmLine.guidLd p.2 p.1).expand := by
  induction bs generalizing i with
  | nil => rfl
  | cons b bs ih => simp [loadAll, AsmLine.expand, ih]

theorem zipIdx_map_finRange {n : Nat} (b : Fin n → Nat) :
    ((List.finRange n).map b).zipIdx = (List.finRange n).map fun j => (b j, j.val) := by
  apply List.ext_getElem <;> simp

/-- Settles O48: the feeds are one per byte, in order, and the loads one per byte at the index where it
stands, which in a list over all of `Fin 16` is the index itself. -/
theorem pseudoInstructionsExpand : Obligations.PseudoInstructionsExpand := by
  unfold Obligations.PseudoInstructionsExpand
  refine ⟨feedAll_eq_flatMap, feedAll_eq_flatMap, fun n => ?_, fun b => ?_⟩
  · simp only [AsmLine.expand, feedAll_eq_flatMap (List.replicate n 0), List.flatMap_def, List.map_replicate]
  · rw [AsmLine.expand, loadAll_eq_flatMap, zipIdx_map_finRange, List.flatMap_map]

end Sys2Proof.Machine
end

section
/-! PROOFS. CRC-32 (40_crc.md): the table and the step as rounds of one linear, injective map (R62, R64 to
R68, R70); the two commands (R63, R64); a run over transactions as the history it leaves (R66, R69); the
host's two checks (R72 to R76). -/

namespace Sys2Proof.Machine

/-! ### The rounds and the table (R62) -/

theorem crcRounds_eq_iterate (n : Nat) (c : Word) : crcRounds n c = crcRound^[n] c := by
  induction n generalizing c with
  | zero => rfl
  | succ n ih => exact ih _

/-- The polynomial has bit 31 set, so the top bit of a round's result is the bit it shifted out. -/
theorem crcRound_getLsbD_top (c : Word) : (crcRound c).getLsbD 31 = c.getLsbD 0 := by
  have hpoly : crcPoly.getLsbD 31 = true := by decide
  unfold crcRound
  split <;> simp_all

theorem crcRound_injective : Function.Injective crcRound := by
  intro a b h
  have hout : a.getLsbD 0 = b.getLsbD 0 := by
    rw [← crcRound_getLsbD_top, h, crcRound_getLsbD_top]
  have hshift : a >>> 1 = b >>> 1 := by
    unfold crcRound at h
    rw [hout] at h
    split at h
    · exact (BitVec.xor_left_inj _).1 h
    · exact h
  apply BitVec.eq_of_getLsbD_eq
  intro k _
  cases k with
  | zero => exact hout
  | succ k =>
    have hbit := congrArg (BitVec.getLsbD · k) hshift
    simpa [Nat.add_comm] using hbit

theorem crcRounds_injective (n : Nat) : Function.Injective (crcRounds n) := by
  rw [funext (crcRounds_eq_iterate n)]
  exact crcRound_injective.iterate n

/-- Rounds over zero bits only shift them out. -/
theorem crcRounds_of_low_zero (n : Nat) (c : Word) (h : ∀ k < n, c.getLsbD k = false) :
    crcRounds n c = c >>> n := by
  induction n generalizing c with
  | zero => simp [crcRounds]
  | succ n ih =>
    have hround : crcRound c = c >>> 1 := if_neg (by rw [h 0 (Nat.succ_pos n)]; exact Bool.false_ne_true)
    have hlow : ∀ k < n, (c >>> 1).getLsbD k = false := fun k hk => by
      rw [BitVec.getLsbD_ushiftRight]
      exact h (1 + k) (by omega)
    rw [crcRounds, hround, ih _ hlow, ← BitVec.shiftRight_add, Nat.add_comm]

theorem zext32_injective : Function.Injective zext32 := by
  intro a b h
  have hlow := congrArg (BitVec.setWidth 8) h
  simpa [zext32] using hlow

/-- Settles O32: T is eight rounds, which are linear and injective. -/
theorem tableOfTheReflectedPolynomial : Obligations.TableOfTheReflectedPolynomial := by
  unfold Obligations.TableOfTheReflectedPolynomial
  refine ⟨fun n => crcRounds_eq_iterate 8 _, by decide, by decide, fun a b => ?_,
    (crcRounds_injective 8).comp zext32_injective⟩
  rw [crcTable, zext32, BitVec.setWidth_xor]
  exact crcRounds_xor 8 _ _

/-! ### One step (R64, R67, R68) -/

/-- A word is its low byte and the three bytes above it. -/
theorem eq_zext32_xor_shift (c : Word) : c = zext32 (c.setWidth 8) ^^^ (c >>> 8) <<< 8 := by
  apply BitVec.eq_of_getLsbD_eq
  intro k hk
  by_cases hlow : k < 8
  · simp [zext32, hlow, hk]
  · simp [zext32, hlow, hk, show 8 + (k - 8) = k by omega]

/-- Eight rounds take the low byte through the table and shift the three bytes above it down (R62, R64). -/
theorem crcRounds_eight (c : Word) : crcRounds 8 c = crcTable (c.setWidth 8) ^^^ c >>> 8 := by
  have hlow : ∀ k < 8, ((c >>> 8) <<< 8).getLsbD k = false := fun k hk => by simp [hk]
  have hback : ((c >>> 8) <<< 8) >>> 8 = c >>> 8 := by
    apply BitVec.eq_of_getLsbD_eq
    intro k _
    by_cases hk : 8 + k < 32
    · simp [hk]
    · simp [hk, BitVec.getLsbD_of_ge c (8 + k) (by omega)]
  conv_lhs => rw [eq_zext32_xor_shift c, crcRounds_xor, crcRounds_of_low_zero 8 _ hlow, hback]
  rfl

theorem feedIndex_eq (a : Word) (b : Byte) : feedIndex a b = a.setWidth 8 ^^^ b := by
  have hmask : (0xFF#32).setWidth 8 = BitVec.allOnes 8 := by decide
  rw [feedIndex, zext32, BitVec.setWidth_and, BitVec.setWidth_xor, hmask, BitVec.and_allOnes]
  simp

/-- Eight rounds of ACC with a word XORed in: a step with the low byte of the word, and the rest of the word
is still to come. -/
theorem crcRounds_eight_xor (a c : Word) :
    crcRounds 8 (a ^^^ c) = crcStep a (c.setWidth 8) ^^^ c >>> 8 := by
  rw [crcRounds_eight, crcStep, feedIndex_eq, BitVec.setWidth_xor, BitVec.ushiftRight_xor_distrib, BitVec.xor_assoc]

/-- The step is eight rounds of ACC with the byte XORed in (R67). -/
theorem crcStep_eq_crcRounds (a : Word) (b : Byte) : crcStep a b = crcRounds 8 (a ^^^ zext32 b) := by
  have hrest : zext32 b >>> 8 = 0#32 := by
    apply BitVec.eq_of_getLsbD_eq
    intro k _
    simp [zext32]
  rw [crcRounds_eight_xor, hrest, BitVec.xor_zero]
  simp [zext32]

theorem crcStep_injective_acc (b : Byte) : Function.Injective (crcStep · b) := by
  intro a a' h
  simp only [crcStep_eq_crcRounds] at h
  exact (BitVec.xor_left_inj _).1 (crcRounds_injective 8 h)

theorem crcStep_injective_byte (a : Word) : Function.Injective (crcStep a) := by
  intro b b' h
  simp only [crcStep_eq_crcRounds] at h
  exact zext32_injective ((BitVec.xor_right_inj _).1 (crcRounds_injective 8 h))

/-- Settles O33: the step is eight rounds, and a round is the function iterated. -/
theorem bitSerialStepAgrees : Obligations.BitSerialStepAgrees := by
  unfold Obligations.BitSerialStepAgrees
  intro b s
  rw [exec_eq, performedState, crcStep_eq_crcRounds, crcRounds_eq_iterate]
  rfl

/-- Settles O34: an injective map of the finitely many words is bijective. -/
theorem feedIsBijective : Obligations.FeedIsBijective := by
  unfold Obligations.FeedIsBijective
  exact fun b => Finite.injective_iff_bijective.1 (crcStep_injective_acc b)

/-! ### Whole buffers (R65, R70) -/

/-- Settles O31: one more byte is one more step of the fold; the check value is one run of nine bytes. -/
theorem wholeBufferFunction : Obligations.WholeBufferFunction := by
  unfold Obligations.WholeBufferFunction
  refine ⟨crcFold_nil, fun a b bs => ?_, fun bs => rfl, by decide +kernel, crc32_nil⟩
  rw [crcFold_append]
  rfl

/-- Feeding the four bytes of a word, low byte first, is 32 rounds of ACC with the word XORed in. -/
theorem crcFold_wordBytes (a c : Word) : crcFold a (wordBytes c) = crcRounds 32 (a ^^^ c) := by
  have hbyte (n : Nat) : c.extractLsb' n 8 = (c >>> n).setWidth 8 := by
    apply BitVec.eq_of_getLsbD_eq
    intro k hk
    simp [hk]
  have hnext (x : Word) (n : Nat) :
      crcRounds 8 (x ^^^ c >>> n) = crcStep x (c.extractLsb' n 8) ^^^ c >>> (n + 8) := by
    rw [crcRounds_eight_xor, hbyte, BitVec.shiftRight_add]
  have hfirst := hnext a 0
  have hdone : c >>> 32 = 0#32 := BitVec.ushiftRight_eq_zero (by decide)
  simp only [BitVec.ushiftRight_zero, Nat.zero_add] at hfirst
  calc crcFold a (wordBytes c)
    _ = crcRounds 8 (crcRounds 8 (crcRounds 8 (crcRounds 8 (a ^^^ c)))) := by
      rw [hfirst, hnext _ 8, hnext _ 16, hnext _ 24, hdone, BitVec.xor_zero]
      rfl
    _ = crcRounds 32 (a ^^^ c) := rfl

/-- Settles O35: ACC and the checksum's bytes cancel to the final XOR, whatever the buffer. -/
theorem checksumResidue : Obligations.ChecksumResidue := by
  unfold Obligations.ChecksumResidue
  rintro bs c rfl
  have hcancel : crcFold crcInitialAcc bs ^^^ crc32 bs = crcFinalXor := by
    rw [crc32, crcResult, ← BitVec.xor_assoc, BitVec.xor_self, BitVec.zero_xor]
  have hresidue : crcRounds 32 crcFinalXor = 0xDEBB20E3#32 := by decide +kernel
  rw [crcFold_append]
  exact (crcFold_wordBytes _ _).trans (hcancel ▸ hresidue)

/-! ### The words of the two commands (R63, R64) -/

/-- The fields of a legal word are those of one command. -/
theorem exists_splitFields_of_legal (w : Word) (h : isIllegal w ≠ true) :
    ∃ i, splitFields w = ⟨opcodeOf i, 0#12, idxOf i, immOf i⟩ := by
  obtain ⟨i, rfl⟩ := (isIllegal_eq_false_iff w).1 (Bool.not_eq_true _ ▸ h)
  exact ⟨i, splitFields_encode i⟩

theorem eq_crcInit_of_opcodeOf (i : Instr) (h : opcodeOf i = 0x01#8) : i = .crcInit := by
  revert h
  cases i <;> simp [opcodeOf]

theorem exists_eq_crcFeed_of_opcodeOf (i : Instr) (h : opcodeOf i = 0x02#8) : ∃ b, i = .crcFeed b := by
  revert h
  cases i <;> simp [opcodeOf]

/-- OP = 0x01 is CRC.INIT's alone, which has one word. -/
theorem isIllegal_of_op_crcInit (w : Word) (hop : w.extractLsb' 24 8 = 0x01#8) (hw : w ≠ encode .crcInit) :
    isIllegal w = true := by
  by_contra hlegal
  obtain ⟨i, hi⟩ := exists_splitFields_of_legal w hlegal
  obtain rfl := eq_crcInit_of_opcodeOf i ((congrArg FormatC.op hi).symm.trans hop)
  exact hw (encode_eq_of_splitFields hi).symm

/-- Bits 23:8 are RSV and IDX, the fields CRC.FEED does not use (R47). -/
theorem rsv_append_idx (w : Word) : (splitFields w).rsv ++ (splitFields w).idx = w.extractLsb' 8 16 :=
  BitVec.extractLsb'_append_extractLsb'_eq_extractLsb' rfl

/-- Bits 23:8 are zero exactly when RSV and IDX are. -/
theorem unusedByFeed_eq_zero_iff (w : Word) :
    w.extractLsb' 8 16 = 0#16 ↔ (splitFields w).rsv = 0#12 ∧ (splitFields w).idx = 0#4 := by
  rw [← rsv_append_idx]
  generalize (splitFields w).rsv = rsv
  generalize (splitFields w).idx = idx
  constructor
  · intro h
    have hrsv := congrArg (BitVec.extractLsb' 4 12) h
    have hidx := congrArg (BitVec.extractLsb' 0 4) h
    rw [BitVec.extractLsb'_append_eq_left] at hrsv
    rw [BitVec.extractLsb'_append_eq_right] at hidx
    exact ⟨hrsv, hidx⟩
  · rintro ⟨rfl, rfl⟩
    rfl

/-- With OP = 0x02 a word is CRC.FEED's if bits 23:8 are zero. -/
theorem decode_of_op_crcFeed (w : Word) (hop : w.extractLsb' 24 8 = 0x02#8) (hunused : w.extractLsb' 8 16 = 0#16) :
    decode w = .command (.crcFeed (w.extractLsb' 0 8)) := by
  obtain ⟨hrsv, hidx⟩ := (unusedByFeed_eq_zero_iff w).1 hunused
  rw [decode_eq_command_iff]
  apply encode_eq_of_splitFields
  calc splitFields w
    _ = ⟨w.extractLsb' 24 8, (splitFields w).rsv, (splitFields w).idx, w.extractLsb' 0 8⟩ := rfl
    _ = ⟨0x02#8, 0#12, 0#4, w.extractLsb' 0 8⟩ := by rw [hop, hrsv, hidx]

/-- With OP = 0x02 and any of bits 23:8 set it is no command's. -/
theorem isIllegal_of_op_crcFeed (w : Word) (hop : w.extractLsb' 24 8 = 0x02#8)
    (hunused : w.extractLsb' 8 16 ≠ 0#16) : isIllegal w = true := by
  by_contra hlegal
  obtain ⟨i, hi⟩ := exists_splitFields_of_legal w hlegal
  obtain ⟨b, rfl⟩ := exists_eq_crcFeed_of_opcodeOf i ((congrArg FormatC.op hi).symm.trans hop)
  exact hunused ((unusedByFeed_eq_zero_iff w).2 (by rw [hi]; exact ⟨rfl, rfl⟩))

/-! ### The two commands (R63, R64) -/

theorem exec_crcInit (s : State) : exec .crcInit s = .next { s with acc := 0xFFFFFFFF#32 } := rfl

/-- Settles O23: CRC.INIT writes one value whatever ACC holds, so a second one writes it again, and CRC_RES
reads the CRC of the empty buffer. -/
theorem crcInitSetsTheAccumulator : Obligations.CrcInitSetsTheAccumulator := by
  unfold Obligations.CrcInitSetsTheAccumulator
  refine ⟨by decide, isIllegal_of_op_crcInit, exec_crcInit, fun s t h => ?_⟩
  rw [exec_crcInit] at h
  cases h
  exact ⟨exec_crcInit _, crc32_nil⟩

theorem exec_crcFeed (b : Byte) (s : State) : exec (.crcFeed b) s = .next { s with acc := crcStep s.acc b } := rfl

/-- A byte equal to ACC[7:0] takes T[0] = 0, so ACC is only shifted. -/
theorem crcStep_low_byte (a : Word) : crcStep a (a.setWidth 8) = a >>> 8 := by
  have hzero : crcTable 0#8 = 0#32 := by decide
  rw [crcStep, feedIndex_eq, BitVec.xor_self, hzero, BitVec.zero_xor]

/-- Settles O24: CRC.FEED writes the step to ACC and nothing else, and each corner case and the example is
one step. -/
theorem crcFeedFoldsOneByte : Obligations.CrcFeedFoldsOneByte := by
  obtain ⟨-, -, hword, -, -, -⟩ := commandWordsOfTheTable
  have hstep (s : State) (b : Byte) (a v : Word) (h : crcStep a b = v) :
      exec (.crcFeed b) { s with acc := a } = .next { s with acc := v } := by
    rw [exec_crcFeed, h]
  unfold Obligations.CrcFeedFoldsOneByte
  refine ⟨hword, fun w hop => ?_, exec_crcFeed, ?_, fun s => hstep s _ _ _ (by decide),
    fun s => hstep s _ _ _ (by decide), fun s => hstep s _ _ _ (by decide), fun s => hstep s _ _ _ (by decide)⟩
  · split_ifs with hunused
    · exact decode_of_op_crcFeed w hop hunused
    · exact isIllegal_of_op_crcFeed w hop hunused
  · rintro b s rfl
    exact hstep s _ s.acc _ (crcStep_low_byte s.acc)

/-! ### What one more transaction adds to a history -/

/-- The last transaction ends what came before it, or is the last of it. -/
theorem sinceLast_concat (p : Transaction → Bool) (ts : List Transaction) (x : Transaction) :
    sinceLast p (ts ++ [x]) = if p x then [] else sinceLast p ts ++ [x] := by
  cases h : p x <;> simp [sinceLast, h]

theorem bytesFed_concat (ts : List Transaction) (x : Transaction) :
    bytesFed (ts ++ [x]) = if startsCrc x then [] else bytesFed ts ++ (fedByte x).toList := by
  rw [bytesFed, sinceLast_concat]
  cases startsCrc x <;> cases h : fedByte x <;> simp [bytesFed, h]

theorem illegalSeen_concat (ts : List Transaction) (x : Transaction) :
    illegalSeen (ts ++ [x]) = if isReset x then false else illegalSeen ts || writesIllegal x := by
  rw [illegalSeen, sinceLast_concat]
  cases isReset x <;> simp [illegalSeen]

theorem lastLoaded_concat (i : Index4) (ts : List Transaction) (x : Transaction) :
    lastLoaded i (ts ++ [x]) = if isReset x then 0#8 else (loadedByte i x).getD (lastLoaded i ts) := by
  rw [lastLoaded, sinceLast_concat]
  cases isReset x <;> cases h : loadedByte i x <;> simp [lastLoaded, h]

/-! ### What one transaction does to each element, said as a history says it -/

/-- A start of a computation sets ACC to its initial value; any other transaction folds in the byte it
feeds, if it feeds one (R63, R64, R66). -/
theorem served_acc (x : Transaction) (s : State) :
    (served x s).acc = if startsCrc x then 0xFFFFFFFF#32 else crcFold s.acc (fedByte x).toList := by
  rcases served_cases x s with
    ⟨i, hi, -, hr, hs⟩ | ⟨hp, -, hr, hs⟩ | ⟨-, -, hr, hs⟩ | ⟨widx, rfl, hs⟩ | ⟨widx, data, rfl, hw, hs⟩
  · rw [hs]
    cases i <;> simp [startsCrc, fedByte, feedOperand, hi, hr, performedState, crcInitialAcc]
  · simp [hs, startsCrc, fedByte, hp, hr]
  · simp [hs, startsCrc, hr, crcInitialAcc]
  · simp [hs, startsCrc, fedByte, performed, isReset]
  · simp [hs, startsCrc, fedByte, performed, isReset, hw]

/-- Reset clears ILL; an illegal word sets it (R95, R96, R109). -/
theorem served_ill (x : Transaction) (s : State) :
    (served x s).ill = if isReset x then false else s.ill || writesIllegal x := by
  rcases served_cases x s with
    ⟨i, -, hw, hr, hs⟩ | ⟨-, hw, hr, hs⟩ | ⟨-, -, hr, hs⟩ | ⟨widx, rfl, hs⟩ | ⟨widx, data, rfl, hne, hs⟩
  · simp [hs, hr, hw]
  · simp [hs, hr, hw]
  · simp [hs, hr]
  · simp [hs, isReset, writesIllegal]
  · simp [hs, isReset, writesIllegal, hne]

/-- Reset clears GIN[i]; a load to i writes the byte it names there (R79, R109). -/
theorem served_gin (x : Transaction) (s : State) (i : Index4) :
    (served x s).gin[bufferIndex i] =
      if isReset x then 0#8 else (loadedByte i x).getD s.gin[bufferIndex i] := by
  rcases served_cases x s with
    ⟨c, hc, -, hr, hs⟩ | ⟨hp, -, hr, hs⟩ | ⟨-, -, hr, hs⟩ | ⟨widx, rfl, hs⟩ | ⟨widx, data, rfl, hw, hs⟩
  · rw [hs]
    simp only [hr, loadedByte, hc, Option.bind_some]
    cases c with
    | guidLd k b =>
      by_cases hk : k = i
      · subst hk
        simp [loadOperand, performedState]
      · have hne := fun b' h => hk (Instr.guidLd.inj (h : Instr.guidLd k b = .guidLd i b')).1
        simp [loadOperand, hk, performedState_gin_of_ne _ s i hne]
    | nop | crcInit | crcFeed | guidDec | guidEnc => simp [loadOperand, performedState]
  · simp [hs, loadedByte, hp, hr]
  · simp [hs, hr]
  · simp [hs, loadedByte, performed, isReset]
  · simp [hs, loadedByte, performed, isReset, hw]

/-- A transcoding writes PERM of GIN to GOUT, and is no Reset (R80, R81). -/
theorem served_gout_of_transcodes (x : Transaction) (s : State) (h : transcodes x = true) :
    (served x s).gout = perm s.gin := by
  simp only [transcodes, Bool.or_eq_true, beq_iff_eq] at h
  rcases h with h | h <;> rw [served_of_performed x s _ h] <;> exact State.setGout_gout s _

theorem served_gout_of_isReset (x : Transaction) (s : State) (h : isReset x = true) :
    (served x s).gout = Vector.replicate 16 0#8 := by
  cases x with
  | reset => rfl
  | write widx data => cases h
  | read widx => cases h

/-- Any other transaction leaves GOUT. -/
theorem served_gout_of_neither (x : Transaction) (s : State) (hr : isReset x = false) (ht : transcodes x = false) :
    (served x s).gout = s.gout := by
  by_contra hne
  rcases served_gout_ne x s hne with h | h
  · simp [hr] at h
  · simp [ht] at h

/-! ### The history determines the block (R66, R85) -/

/-- Serving a transaction keeps the invariant: the block then holds what the history says with it. -/
theorem served_meetsHistory (x : Transaction) (s : State) (ts : List Transaction) (h : s.MeetsHistory ts) :
    (served x s).MeetsHistory (ts ++ [x]) := by
  obtain ⟨hacc, hill, hgin, hzero, hgout⟩ := h
  refine ⟨?_, ?_, fun i => ?_, fun hnone => ?_, fun before after y hsplit hy hafter j => ?_⟩
  · rw [served_acc, bytesFed_concat, hacc]
    split <;> simp [crcFold_append]
  · rw [served_ill, illegalSeen_concat, hill]
  · rw [served_gin, lastLoaded_concat, hgin]
  · rw [sinceLast_concat] at hnone
    cases hr : isReset x with
    | true => exact served_gout_of_isReset x s hr
    | false =>
      obtain ⟨hbefore, hx⟩ : (sinceLast isReset ts).any transcodes = false ∧ transcodes x = false := by
        simpa [hr] using hnone
      rw [served_gout_of_neither x s hr hx]
      exact hzero hbefore
  · rcases List.eq_nil_or_concat' after with rfl | ⟨after, z, rfl⟩
    · obtain ⟨rfl, hxy⟩ := List.append_inj' hsplit rfl
      obtain rfl : x = y := by simpa using hxy
      rw [served_gout_of_transcodes x s hy]
      exact (perm_getElem s.gin j.val j.isLt).trans (hgin (BitVec.ofFin permIndex[j]))
    · rw [← List.cons_append, ← List.append_assoc] at hsplit
      obtain ⟨rfl, hxz⟩ := List.append_inj' hsplit rfl
      obtain rfl : x = z := by simpa using hxz
      obtain ⟨hr, hx⟩ := hafter x (by simp)
      rw [served_gout_of_neither x s hr hx]
      exact hgout before after y rfl hy (fun u hu => hafter u (by simp [hu])) j

/-- Settles O54: a step waits, or serves the transaction of the host's oldest request. -/
theorem stepKeepsTheHistory : Obligations.StepKeepsTheHistory := by
  unfold Obligations.StepKeepsTheHistory
  intro s t ts h hstep
  rcases step_next_cases s t hstep with ⟨hp, rfl⟩ | ⟨q, rest, x, hp, hq, rfl⟩
  · simpa [State.servesNext, hp] using h
  · have hserves : s.servesNext = [x] := by simp [State.servesNext, hp, hq]
    rw [hserves]
    exact served_meetsHistory x { s with pending := rest } ts h

theorem servedAll_meetsHistory (xs : List Transaction) (s : State) (ts : List Transaction)
    (h : s.MeetsHistory ts) : (servedAll xs s).MeetsHistory (ts ++ xs) := by
  induction xs generalizing s ts with
  | nil => simpa [servedAll] using h
  | cons x xs ih => simpa [servedAll] using ih _ _ (served_meetsHistory x s ts h)

/-- A Reset begins a history, whatever the block held. -/
theorem resetBlock_meetsHistory (s : State) : (resetBlock s).MeetsHistory [] :=
  resetStateMeetsTheEmptyHistory

/-- Settles O38: the Reset begins the history, and each transaction after it is one more of it. -/
theorem historyDeterminesTheBlock : Obligations.HistoryDeterminesTheBlock := by
  unfold Obligations.HistoryDeterminesTheBlock
  intro s ts
  exact ⟨servedAll ts (resetBlock s), runSteps_facing (.reset :: ts) s, servedAll_pending ts _,
    servedAll_meetsHistory ts _ [] (resetBlock_meetsHistory s)⟩

/-! ### A computation with other transactions between its feeds (R66, R69) -/

/-- With no start of a computation among them, transactions fold in the bytes they feed. -/
theorem servedAll_acc (xs : List Transaction) (s : State) (h : ∀ x ∈ xs, startsCrc x = false) :
    (servedAll xs s).acc = crcFold s.acc (xs.filterMap fedByte) := by
  induction xs generalizing s with
  | nil => rfl
  | cons x xs ih =>
    obtain ⟨hx, hxs⟩ := List.forall_mem_cons.1 h
    rw [servedAll, ih _ hxs, served_acc, hx]
    cases hb : fedByte x <;> simp [hb]

/-- Word index 3 is CRC_RES (R30). -/
theorem served_read_crcRes (s : State) : served (.read 3#4) s = s.observe (crcResult s.acc) := rfl

/-- A read of CRC_RES after transactions that start no computation returns the checksum of the bytes fed
before them and by them, and leaves ACC. -/
theorem servedAll_read_crcRes (xs : List Transaction) (s : State) (bs : List Byte)
    (hacc : s.acc = crcFold crcInitialAcc bs) (h : ∀ x ∈ xs, startsCrc x = false) :
    (servedAll (xs ++ [.read 3#4]) s).reads.getLast? = some (crc32 (bs ++ xs.filterMap fedByte)) ∧
      (servedAll (xs ++ [.read 3#4]) s).acc = crcFold crcInitialAcc (bs ++ xs.filterMap fedByte) := by
  have hfold : (servedAll xs s).acc = crcFold crcInitialAcc (bs ++ xs.filterMap fedByte) := by
    rw [servedAll_acc xs s h, hacc, crcFold_append]
  simp [servedAll_append, servedAll, served_read_crcRes, hfold, crc32]

/-- What CRC.INIT and Reset leave is the fold of no bytes. -/
theorem served_acc_of_startsCrc (x : Transaction) (s : State) (h : startsCrc x = true) :
    (served x s).acc = crcFold crcInitialAcc [] := by
  rw [served_acc, h]
  rfl

/-- A run over the host's transactions, counted as the statements count them. -/
theorem runSteps_facing_of_length {n : Nat} (xs : List Transaction) (s : State) (h : xs.length = n) :
    runSteps n (s.facing xs) = .next (servedAll xs s) := h ▸ runSteps_facing xs s

/-- Settles O36: from the start on ACC is the fold of the bytes fed, and CRC_RES reads its complement. -/
theorem interleavedFeedsGiveTheChecksum : Obligations.InterleavedFeedsGiveTheChecksum := by
  unfold Obligations.InterleavedFeedsGiveTheChecksum
  intro s start ts hstart hts
  have hstarts : startsCrc start = true := by
    rcases hstart with rfl | rfl <;> decide
  obtain ⟨hread, -⟩ :=
    servedAll_read_crcRes ts (served start s) [] (served_acc_of_startsCrc start s hstarts) hts
  exact ⟨_, runSteps_facing_of_length _ s (by simp), servedAll_pending _ s, hread⟩

/-- Settles O37: the read leaves ACC, so the second part folds its bytes in after those of the first. -/
theorem midStreamReadsDoNotDisturb : Obligations.MidStreamReadsDoNotDisturb := by
  unfold Obligations.MidStreamReadsDoNotDisturb
  intro s xs ys hxs hys
  have hinit : (served (command .crcInit) s).acc = crcFold crcInitialAcc [] :=
    served_acc_of_startsCrc _ s (by decide)
  obtain ⟨hread, hacc⟩ := servedAll_read_crcRes xs _ [] hinit hxs
  obtain ⟨hread', -⟩ := servedAll_read_crcRes ys _ _ hacc hys
  exact ⟨_, _, runSteps_facing_of_length _ s (by simp), hread, runSteps_facing_of_length _ _ (by simp), hread'⟩

/-! ### One checksum computation of the host (R66, R111) -/

/-- The command's Write to CMD performs the command. -/
theorem served_command (i : Instr) (s : State) : served (command i) s = performedState i s :=
  served_of_performed _ s i (by simp [performed, command, decodeCommand, decode_encode])

theorem servedAll_feedBytes (bs : List Byte) (s : State) :
    servedAll (feedBytes bs) s = s.setAcc (crcFold s.acc bs) := by
  induction bs generalizing s with
  | nil => rfl
  | cons b bs ih =>
    calc servedAll (feedBytes (b :: bs)) s
      _ = servedAll (feedBytes bs) (served (command (.crcFeed b)) s) := rfl
      _ = s.setAcc (crcFold s.acc (b :: bs)) := by
        rw [served_command, ih]
        rfl

/-- A computation leaves the fold of its bytes in ACC and hands over their checksum; nothing else of the
block changes. -/
theorem servedAll_checksumTransactions (bs : List Byte) (s : State) :
    servedAll (checksumTransactions bs) s = (s.setAcc (crcFold crcInitialAcc bs)).observe (crc32 bs) := by
  calc servedAll (checksumTransactions bs) s
    _ = servedAll [.read 3#4] (servedAll (feedBytes bs) (served (command .crcInit) s)) := servedAll_append _ _ _
    _ = (s.setAcc (crcFold crcInitialAcc bs)).observe (crc32 bs) := by
      rw [servedAll_feedBytes, served_command]
      rfl

/-- From any state the host reads the checksum of the bytes. -/
theorem runSteps_checksumTransactions (bs : List Byte) (s : State) :
    ∃ t, runSteps (bs.length + 2) (s.facing (checksumTransactions bs)) = .next t ∧
      t.reads = s.reads ++ [crc32 bs] :=
  ⟨_, runSteps_facing_of_length _ s (length_checksumTransactions bs),
    by rw [servedAll_checksumTransactions, State.observe_reads, State.setAcc_reads]⟩

/-! ### The bytes of the two checks (R72 to R74) -/

@[simp] theorem headerStart_eq (blockSize : Nat) : headerStart blockSize = blockSize := Nat.mul_one _

/-- All that reading the header for its checksum can answer. -/
theorem headerChecksumBytes_eq_some (blockSize : Nat) (image : Image) (bs : List Byte) :
    headerChecksumBytes blockSize image = some bs ↔
      ∃ size raw, image.field (blockSize + 12) 4 = some size ∧ image.bytes blockSize size = some raw ∧
        zeroChecksumField raw = bs := by
  simp [headerChecksumBytes, Option.bind_eq_some_iff]

/-- All that reading the partition array can answer. -/
theorem arrayChecksumBytes_eq_some (blockSize : Nat) (image : Image) (bs : List Byte) :
    arrayChecksumBytes blockSize image = some bs ↔
      ∃ lba count size, image.field (blockSize + 72) 8 = some lba ∧ image.field (blockSize + 80) 4 = some count ∧
        image.field (blockSize + 84) 4 = some size ∧ image.bytes (blockSize * lba) (count * size) = some bs := by
  simp [arrayChecksumBytes, partArray, Option.bind_eq_some_iff, and_assoc]

/-- Settles O49: the bytes are the header's with the checksum field zeroed, and the run is one computation
over them. -/
theorem headerChecksumThroughTheBlock : Obligations.HeaderChecksumThroughTheBlock := by
  unfold Obligations.HeaderChecksumThroughTheBlock
  intro blockSize image bs h
  obtain ⟨size, raw, hsize, hraw, rfl⟩ := (headerChecksumBytes_eq_some _ _ _).1 h
  have hlen := image.bytes_length _ _ _ hraw
  refine ⟨by rw [hsize, length_zeroChecksumField, hlen], fun k hk => ?_, runSteps_checksumTransactions _⟩
  rw [length_zeroChecksumField] at hk
  rw [zeroChecksumField_getElem?, ← image.bytes_getElem? _ _ _ hraw k (by omega)]
  simp [hk]

/-- Settles O50: the bytes are those of all entries, and the run is one computation over them; no entries
are no bytes, whose checksum is 0. -/
theorem arrayChecksumThroughTheBlock : Obligations.ArrayChecksumThroughTheBlock := by
  unfold Obligations.ArrayChecksumThroughTheBlock
  intro blockSize image bs h
  obtain ⟨lba, count, size, hlba, hcount, hsize, hbs⟩ := (arrayChecksumBytes_eq_some _ _ _).1 h
  have hlen := image.bytes_length _ _ _ hbs
  refine ⟨⟨lba, count, size, hlba, hcount, hsize, hlen, fun k hk => ?_, fun hnone stored => ?_⟩,
    runSteps_checksumTransactions bs⟩
  · exact image.bytes_getElem? _ _ _ hbs k (hlen ▸ hk)
  · obtain rfl : bs = [] := List.eq_nil_of_length_eq_zero (by simp [hlen, hnone])
    rw [crc32_nil, checksumOk, Bool.beq_comm]

/-! ### The outcomes of the two checks (R75, R76) -/

theorem Image.field_isSome (image : Image) (a n : Nat) (h : a + n ≤ image.length) :
    ∃ v, image.field a n = some v := by
  simp [Image.field, image.bytes_isSome a n h]

/-- All that a field can be read as. -/
theorem Image.field_eq_some (image : Image) (a n v : Nat) :
    image.field a n = some v ↔ ∃ bs, image.bytes a n = some bs ∧ leValue bs = v := by
  simp [Image.field]

theorem leValue_lt (bs : List Byte) : leValue bs < 256 ^ bs.length := by
  induction bs with
  | nil => simp [leValue]
  | cons b bs ih =>
    have hb := b.isLt
    rw [leValue, List.length_cons, Nat.pow_succ]
    omega

/-- A field of four bytes fits a word, so no two values of it give one word. -/
theorem Image.field_four_lt (image : Image) (a v : Nat) (h : image.field a 4 = some v) : v < 2 ^ 32 := by
  obtain ⟨bs, hbs, rfl⟩ := (image.field_eq_some _ _ _).1 h
  have hlt := leValue_lt bs
  rwa [image.bytes_length _ _ _ hbs] at hlt

theorem storedHeaderCrc_eq (blockSize : Nat) (image : Image) :
    storedHeaderCrc blockSize image = (image.field (blockSize + 16) 4).map (BitVec.ofNat 32) := by
  rw [storedHeaderCrc, headerStart_eq]

theorem storedArrayCrc_eq (blockSize : Nat) (image : Image) :
    storedArrayCrc blockSize image = (image.field (blockSize + 88) 4).map (BitVec.ofNat 32) := by
  rw [storedArrayCrc, headerStart_eq]

theorem headerCrcOk_of_some {blockSize : Nat} {image : Image} {covered : List Byte} {stored : Word}
    (hcovered : headerChecksumBytes blockSize image = some covered)
    (hstored : storedHeaderCrc blockSize image = some stored) :
    headerCrcOk blockSize image = some (crc32 covered == stored) := by
  simp [headerCrcOk, hcovered, hstored, checksumOk]

theorem partArrayCrcOk_of_some {blockSize : Nat} {image : Image} {covered : List Byte} {stored : Word}
    (hcovered : arrayChecksumBytes blockSize image = some covered)
    (hstored : storedArrayCrc blockSize image = some stored) :
    partArrayCrcOk blockSize image = some (crc32 covered == stored) := by
  simp [partArrayCrcOk, hcovered, hstored, checksumOk]

/-- Settles O51: the header's other fields can be read, no entries are no bytes, and a stored field that is
0 as a word is 0. -/
theorem emptyPartitionArrayCheck : Obligations.EmptyPartitionArrayCheck := by
  unfold Obligations.EmptyPartitionArrayCheck
  intro blockSize image hend hcount
  obtain ⟨lba, hlba⟩ := image.field_isSome (blockSize + 72) 8 (by omega)
  obtain ⟨size, hsize⟩ := image.field_isSome (blockSize + 84) 4 (by omega)
  obtain ⟨stored, hstored⟩ := image.field_isSome (blockSize + 88) 4 (by omega)
  have hbytes : arrayChecksumBytes blockSize image = some [] :=
    (arrayChecksumBytes_eq_some _ _ _).2 ⟨lba, 0, size, hlba, hcount, hsize, by simp⟩
  have hword : storedArrayCrc blockSize image = some (BitVec.ofNat 32 stored) := by
    rw [storedArrayCrc_eq, hstored, Option.map_some]
  have hzero : (0#32 == BitVec.ofNat 32 stored) = (stored == 0) := by
    have hlt := image.field_four_lt _ _ hstored
    rw [Bool.eq_iff_iff, beq_iff_eq, beq_iff_eq, ← BitVec.toNat_inj, BitVec.toNat_ofNat, BitVec.toNat_ofNat,
      Nat.mod_eq_of_lt hlt]
    exact eq_comm
  refine ⟨hbytes, ⟨stored, hstored, ?_⟩, fun s => ?_⟩
  · rw [partArrayCrcOk_of_some hbytes hword, crc32_nil, hzero]
  · have hrun := runSteps_checksumTransactions [] s
    rwa [crc32_nil] at hrun

/-- Settles O53: the second computation begins with a CRC.INIT of its own, so its checksum does not depend
on what the first left. -/
theorem bothChecksRunWhateverEitherGives : Obligations.BothChecksRunWhateverEitherGives := by
  unfold Obligations.BothChecksRunWhateverEitherGives
  intro blockSize image ts h
  obtain ⟨header, hheader, array, harray, rfl⟩ : ∃ header, headerChecksumBytes blockSize image = some header ∧
      ∃ array, arrayChecksumBytes blockSize image = some array ∧
        checksumTransactions header ++ checksumTransactions array = ts := by
    simpa [bothChecks, Option.bind_eq_some_iff] using h
  refine ⟨header, array, hheader, harray, fun s => ⟨_, runSteps_facing _ s, ?_⟩,
    fun _ => headerCrcOk_of_some hheader, fun _ => partArrayCrcOk_of_some harray⟩
  simp [servedAll_append, servedAll_checksumTransactions]

/-! ### A flipped bit (R76) -/

/-- The flip of one bit of a byte. -/
def flipBitOf (bit : Fin 8) (b : Byte) : Byte := b ^^^ (1#8 <<< bit.val)

theorem flipBitOf_ne (bit : Fin 8) (b : Byte) : flipBitOf bit b ≠ b := flipped_ne b bit

/-- A read of the flipped image is the read of the image with that bit flipped. -/
theorem Image.bytes_flipBit (image : Image) (a n k : Nat) (bit : Fin 8) :
    (image.flipBit (a + k) bit).bytes a n = (image.bytes a n).map (·.modify k (flipBitOf bit)) := by
  have hread : ((image.flipBit (a + k) bit).drop a).take n = ((image.drop a).take n).modify k (flipBitOf bit) := by
    apply List.ext_getElem?
    intro i
    simp only [List.getElem?_take, List.getElem?_drop, Image.flipBit_getElem?, List.getElem?_modify]
    by_cases hi : k = i
    · subst hi
      split <;> simp [flipBitOf]
    · simp [hi]
  simp only [Image.bytes, Image.length_flipBit, hread]
  split <;> rfl

/-- Outside the checksum field, zeroing it keeps the change of one byte. -/
theorem zeroChecksumField_modify (raw : List Byte) (k : Nat) (f : Byte → Byte) (hk : k < 16 ∨ 20 ≤ k) :
    zeroChecksumField (raw.modify k f) = (zeroChecksumField raw).modify k f := by
  apply List.ext_getElem?
  intro i
  simp only [zeroChecksumField_getElem?, List.getElem?_modify]
  by_cases hi : k = i
  · subst hi
    rw [if_neg (by omega), if_neg (by omega)]
  · simp [hi]

/-- Within the checksum field, zeroing it forgets the change. -/
theorem zeroChecksumField_modify_inside (raw : List Byte) (k : Nat) (f : Byte → Byte) (hk : 16 ≤ k ∧ k < 20) :
    zeroChecksumField (raw.modify k f) = zeroChecksumField raw := by
  apply List.ext_getElem?
  intro i
  simp only [zeroChecksumField_getElem?, List.getElem?_modify]
  by_cases hi : k = i
  · subst hi
    simp [hk, Function.comp_def]
  · simp [hi]

theorem crcFold_injective_acc (bs : List Byte) : Function.Injective (crcFold · bs) := by
  induction bs with
  | nil => exact Function.injective_id
  | cons b bs ih => exact ih.comp (crcStep_injective_acc b)

/-- The detection of a changed byte: the step that takes the byte is injective in it, and the steps after it
are injective in ACC. -/
theorem crcFold_modify_ne (a : Word) (bs : List Byte) (k : Nat) (hk : k < bs.length) (f : Byte → Byte)
    (hf : ∀ b, f b ≠ b) : crcFold a (bs.modify k f) ≠ crcFold a bs := by
  induction bs generalizing a k with
  | nil => simp at hk
  | cons b bs ih =>
    cases k with
    | zero => exact (crcFold_injective_acc bs).ne ((crcStep_injective_byte a).ne (hf b))
    | succ k => exact ih _ k (by simpa using hk)

theorem crc32_modify_ne (bs : List Byte) (k : Nat) (hk : k < bs.length) (bit : Fin 8) :
    crc32 (bs.modify k (flipBitOf bit)) ≠ crc32 bs := fun h =>
  crcFold_modify_ne crcInitialAcc bs k hk (flipBitOf bit) (flipBitOf_ne bit)
    ((BitVec.xor_left_inj _).1 h)

/-- Little-endian values of as many bytes are equal only for equal bytes. -/
theorem leValue_injective {bs cs : List Byte} (hlen : bs.length = cs.length) (h : leValue bs = leValue cs) :
    bs = cs := by
  induction bs generalizing cs with
  | nil => exact (List.eq_nil_of_length_eq_zero hlen.symm).symm
  | cons b bs ih =>
    cases cs with
    | nil => simp at hlen
    | cons c cs =>
      have hb := b.isLt
      have hc := c.isLt
      simp only [leValue] at h
      rw [BitVec.eq_of_toNat_eq (show b.toNat = c.toNat by omega), ih (by simpa using hlen) (by omega)]

theorem Image.field_flipBit_of_outside (image : Image) (a n x : Nat) (bit : Fin 8) (h : x < a ∨ a + n ≤ x) :
    (image.flipBit x bit).field a n = image.field a n := by
  rw [Image.field, Image.field, Image.bytes_flipBit_of_outside image a n x bit h]

/-- A flipped bit of a field of four bytes changes the word it is read as. -/
theorem Image.field_flipBit_inside (image : Image) (a v k : Nat) (bit : Fin 8) (hk : k < 4)
    (h : image.field a 4 = some v) :
    ∃ v', (image.flipBit (a + k) bit).field a 4 = some v' ∧ BitVec.ofNat 32 v' ≠ BitVec.ofNat 32 v := by
  obtain ⟨bs, hbs, rfl⟩ := (image.field_eq_some _ _ _).1 h
  have hlen := image.bytes_length _ _ _ hbs
  have hfield' : (image.flipBit (a + k) bit).field a 4 = some (leValue (bs.modify k (flipBitOf bit))) := by
    simp [Image.field, Image.bytes_flipBit, hbs]
  refine ⟨_, hfield', fun hword => ?_⟩
  have hvalue : leValue (bs.modify k (flipBitOf bit)) = leValue bs := by
    have hnat := congrArg BitVec.toNat hword
    rwa [BitVec.toNat_ofNat, BitVec.toNat_ofNat, Nat.mod_eq_of_lt (Image.field_four_lt _ _ _ hfield'),
      Nat.mod_eq_of_lt (image.field_four_lt _ _ h)] at hnat
  have hbyte := congrArg (·[k]?) (leValue_injective (by simp) hvalue)
  simp [hlen, hk, flipBitOf_ne] at hbyte

/-- A flipped bit outside header_size_bytes leaves the range of the header checksum. -/
theorem headerChecksumBytes_flipBit {blockSize size : Nat} {image : Image} {raw : List Byte}
    (hsize : image.field (blockSize + 12) 4 = some size) (hraw : image.bytes blockSize size = some raw)
    (k : Nat) (bit : Fin 8) (hk : k < 12 ∨ 16 ≤ k) :
    headerChecksumBytes blockSize (image.flipBit (blockSize + k) bit) =
      some (zeroChecksumField (raw.modify k (flipBitOf bit))) := by
  refine (headerChecksumBytes_eq_some _ _ _).2 ⟨size, _, ?_, ?_, rfl⟩
  · rw [Image.field_flipBit_of_outside image _ _ _ bit (by omega), hsize]
  · rw [Image.bytes_flipBit, hraw, Option.map_some]

theorem storedHeaderCrc_flipBit_of_outside (blockSize : Nat) (image : Image) (k : Nat) (bit : Fin 8)
    (hk : k < 16 ∨ 20 ≤ k) :
    storedHeaderCrc blockSize (image.flipBit (blockSize + k) bit) = storedHeaderCrc blockSize image := by
  rw [storedHeaderCrc_eq, storedHeaderCrc_eq, Image.field_flipBit_of_outside image _ _ _ bit (by omega)]

theorem storedHeaderCrc_flipBit_inside (blockSize : Nat) (image : Image) (stored : Word) (k : Nat) (bit : Fin 8)
    (hk : 16 ≤ k ∧ k < 20) (h : storedHeaderCrc blockSize image = some stored) :
    ∃ stored', storedHeaderCrc blockSize (image.flipBit (blockSize + k) bit) = some stored' ∧ stored' ≠ stored := by
  rw [storedHeaderCrc_eq] at h
  obtain ⟨v, hv, rfl⟩ := Option.map_eq_some_iff.1 h
  obtain ⟨v', hv', hne⟩ := image.field_flipBit_inside (blockSize + 16) v (k - 16) bit (by omega) hv
  rw [show blockSize + 16 + (k - 16) = blockSize + k by omega] at hv'
  exact ⟨_, by rw [storedHeaderCrc_eq, hv', Option.map_some], hne⟩

/-- A flipped bit of a covered byte outside the checksum field changes the header's checksum. -/
theorem crc32_zeroChecksumField_modify_ne (raw : List Byte) (k : Nat) (bit : Fin 8) (hk : k < 16 ∨ 20 ≤ k)
    (hlen : k < raw.length) :
    crc32 (zeroChecksumField (raw.modify k (flipBitOf bit))) ≠ crc32 (zeroChecksumField raw) := by
  rw [zeroChecksumField_modify raw k _ hk]
  exact crc32_modify_ne _ k (by rwa [length_zeroChecksumField]) bit

/-- All that a header check that passes has read. -/
theorem of_headerCrcOk {blockSize size : Nat} {image : Image} (hsize : image.field (blockSize + 12) 4 = some size)
    (h : headerCrcOk blockSize image = some true) :
    ∃ raw, image.bytes blockSize size = some raw ∧
      storedHeaderCrc blockSize image = some (crc32 (zeroChecksumField raw)) := by
  simpa [headerCrcOk, headerChecksumBytes, hsize, checksumOk, Option.bind_eq_some_iff] using h

/-- Settles O52: a flipped bit changes the checksum computed or the checksum stored, and never both: the
stored one's bytes are fed as zeros. -/
theorem singleBitFlipsFailTheHeaderCheck : Obligations.SingleBitFlipsFailTheHeaderCheck := by
  unfold Obligations.SingleBitFlipsFailTheHeaderCheck
  intro blockSize size image hsize hok k bit
  obtain ⟨raw, hraw, hstored⟩ := of_headerCrcOk hsize hok
  have hlen := image.bytes_length _ _ _ hraw
  refine ⟨fun hk hrange => ?_, fun h12 h16 hk => ?_, fun hk h20 => ?_⟩
  · have hcovered := headerChecksumBytes_flipBit hsize hraw k bit hrange
    by_cases hfield : 16 ≤ k ∧ k < 20
    · obtain ⟨stored', hstored', hne⟩ := storedHeaderCrc_flipBit_inside _ _ _ k bit hfield hstored
      rw [zeroChecksumField_modify_inside raw k _ hfield] at hcovered
      rw [headerCrcOk_of_some hcovered hstored', beq_false_of_ne hne.symm]
    · have hne := crc32_zeroChecksumField_modify_ne raw k bit (by omega) (by omega)
      rw [← storedHeaderCrc_flipBit_of_outside _ _ k bit (by omega)] at hstored
      rw [headerCrcOk_of_some hcovered hstored, beq_false_of_ne hne]
  · have hne := crc32_zeroChecksumField_modify_ne raw k bit (by omega) (by omega)
    rw [← storedHeaderCrc_flipBit_of_outside _ _ k bit (by omega)] at hstored
    refine ⟨raw.modify k (flipBitOf bit), _, ?_, hstored, beq_false_of_ne hne⟩
    rw [Image.bytes_flipBit, hraw, Option.map_some]
  · have hcovered := headerChecksumBytes_flipBit hsize hraw k bit (by omega)
    rw [List.modify_eq_self (by omega)] at hcovered
    rw [← storedHeaderCrc_flipBit_of_outside _ _ k bit (by omega)] at hstored
    rw [headerCrcOk_of_some hcovered hstored, beq_self_eq_true]

end Sys2Proof.Machine
end

section
/-! PROOFS. The GUID transcoder (41_guid.md): the words and the effects of GUID.LD, GUID.DEC and GUID.ENC
(R79 to R81), PERM (R78, R82 to R84), a load and a transcoding through the block (R82, R87, R112), and the
GUIDs of the host's image (R87, R88). -/

namespace Sys2Proof.Machine

/-! ### GUID.LD (R79) -/

/-- With OP = 0x10 and RSV zero a word is GUID.LD's, whatever IDX and IMM8 are. -/
theorem decode_of_op_guidLd (w : Word) (hop : w.extractLsb' 24 8 = 0x10#8) (hrsv : w.extractLsb' 12 12 = 0#12) :
    decode w = .command (.guidLd (w.extractLsb' 8 4) (w.extractLsb' 0 8)) := by
  rw [decode_eq_command_iff]
  apply encode_eq_of_splitFields
  calc splitFields w
    _ = ⟨w.extractLsb' 24 8, w.extractLsb' 12 12, w.extractLsb' 8 4, w.extractLsb' 0 8⟩ := rfl
    _ = ⟨0x10#8, 0#12, w.extractLsb' 8 4, w.extractLsb' 0 8⟩ := by rw [hop, hrsv]

/-- RSV is zero in every legal word (R51). -/
theorem isIllegal_of_rsv_ne_zero (w : Word) (hrsv : w.extractLsb' 12 12 ≠ 0#12) : isIllegal w = true := by
  by_contra hlegal
  obtain ⟨i, hi⟩ := exists_splitFields_of_legal w hlegal
  exact hrsv (congrArg FormatC.rsv hi)

theorem exec_guidLd (i : Index4) (b : Byte) (s : State) :
    exec (.guidLd i b) s = .next { s with gin := s.gin.set (bufferIndex i).val b } := rfl

/-- Settles O25: the load sets one byte of the buffer, and setting the same byte again forgets the first. -/
theorem guidLdWritesOneByte : Obligations.GuidLdWritesOneByte := by
  obtain ⟨-, -, -, hword, -, -⟩ := commandWordsOfTheTable
  unfold Obligations.GuidLdWritesOneByte
  refine ⟨hword, fun w hop => ?_, fun i b s => ⟨_, exec_guidLd i b s, fun j => ?_⟩, fun i b c s t h => ?_, by decide⟩
  · split_ifs with hrsv
    · exact decode_of_op_guidLd w hop hrsv
    · exact isIllegal_of_rsv_ne_zero w hrsv
  · have hindex : j.val = i.toNat ↔ (bufferIndex i).val = j.val := eq_comm
    simp only [hindex, Fin.getElem_fin, Vector.getElem_set]
  · rw [exec_guidLd] at h
    cases h
    simp only [exec_guidLd, Vector.set_set]

/-! ### PERM (R78, R82, R84) -/

/-- PERM written out, byte by byte (R78). -/
theorem perm_eq (x : Buffer) :
    perm x = #v[x[3], x[2], x[1], x[0], x[5], x[4], x[7], x[6],
      x[8], x[9], x[10], x[11], x[12], x[13], x[14], x[15]] := rfl

/-- P is its own inverse (R82). -/
theorem permIndex_permIndex : ∀ j : Fin 16, permIndex[permIndex[j]] = j := by decide

@[simp] theorem perm_perm (x : Buffer) : perm (perm x) = x := by
  apply Vector.ext
  intro j hj
  have hinv : permIndex[permIndex[j]] = ⟨j, hj⟩ := permIndex_permIndex ⟨j, hj⟩
  calc (perm (perm x))[j]
    _ = x[permIndex[permIndex[j]]] := by simp only [perm_getElem, Fin.getElem_fin]
    _ = x[j] := by simp only [hinv, Fin.getElem_fin]

@[simp] theorem perm_replicate (b : Byte) : perm (Vector.replicate 16 b) = Vector.replicate 16 b := by
  apply Vector.ext
  intro j hj
  simp

/-! ### GUID.DEC and GUID.ENC (R80, R81) -/

/-- A command that alone has its OP value and has one word makes every other word of that OP illegal. -/
theorem isIllegal_of_op_of_unique (i : Instr) (hunique : ∀ k, opcodeOf k = opcodeOf i → k = i) (w : Word)
    (hop : w.extractLsb' 24 8 = opcodeOf i) (hw : w ≠ encode i) : isIllegal w = true := by
  by_contra hlegal
  obtain ⟨k, hk⟩ := exists_splitFields_of_legal w hlegal
  obtain rfl := hunique k ((congrArg FormatC.op hk).symm.trans hop)
  exact hw (encode_eq_of_splitFields hk).symm

theorem eq_guidDec_of_opcodeOf (k : Instr) (h : opcodeOf k = opcodeOf .guidDec) : k = .guidDec := by
  revert h
  cases k <;> simp [opcodeOf]

theorem eq_guidEnc_of_opcodeOf (k : Instr) (h : opcodeOf k = opcodeOf .guidEnc) : k = .guidEnc := by
  revert h
  cases k <;> simp [opcodeOf]

theorem exec_guidDec (s : State) : exec .guidDec s = .next { s with gout := perm s.gin } := rfl

theorem exec_guidEnc (s : State) : exec .guidEnc s = .next { s with gout := perm s.gin } := rfl

/-- Settles O26: GUID.DEC writes PERM of GIN to GOUT and leaves GIN, so a second one writes the same again;
each value given is PERM of its GIN. -/
theorem guidDecTranscodes : Obligations.GuidDecTranscodes := by
  obtain ⟨-, -, -, -, hword, -⟩ := commandWordsOfTheTable
  unfold Obligations.GuidDecTranscodes
  refine ⟨hword, isIllegal_of_op_of_unique .guidDec eq_guidDec_of_opcodeOf, fun s => ?_, fun s t h => ?_,
    fun s hs => ?_, fun s hs => ?_⟩
  · rw [exec_guidDec, perm_eq]
  · rw [exec_guidDec] at h
    cases h
    exact exec_guidDec _
  · rw [exec_guidDec, hs, perm_replicate]
  · rw [exec_guidDec, hs]
    rfl

/-- Settles O27: the effect of GUID.ENC is that of GUID.DEC, under an OP value of its own. -/
theorem guidEncTranscodes : Obligations.GuidEncTranscodes := by
  obtain ⟨-, -, -, -, -, hword⟩ := commandWordsOfTheTable
  unfold Obligations.GuidEncTranscodes
  refine ⟨hword, isIllegal_of_op_of_unique .guidEnc eq_guidEnc_of_opcodeOf, fun s => ?_, fun s t h => ?_,
    fun s hs => ?_, fun s hs => ?_⟩
  · rw [exec_guidEnc, perm_eq]
  · rw [exec_guidEnc] at h
    cases h
    exact exec_guidEnc _
  · rw [exec_guidEnc, hs, perm_replicate]
  · rw [exec_guidEnc, hs]
    rfl

/-- Settles O42: P is its own inverse as a table of 16 entries, so PERM is one on buffers, and both commands
write PERM of GIN. -/
theorem permIsAnInvolution : Obligations.PermIsAnInvolution := by
  unfold Obligations.PermIsAnInvolution
  exact ⟨permIndex_permIndex, perm_perm, fun s => ⟨exec_guidDec s, exec_guidEnc s⟩⟩

/-- Settles O45: byte j of GOUT is byte P[j] of GIN, whatever the other bytes are. -/
theorem lanesDoNotMix : Obligations.LanesDoNotMix := by
  unfold Obligations.LanesDoNotMix
  intro s s' t t' j hgin ht ht'
  rw [exec_guidDec] at ht ht'
  cases ht
  cases ht'
  calc (perm s.gin)[j]
    _ = s.gin[permIndex[j]] := perm_getElem s.gin j.val j.isLt
    _ = s'.gin[permIndex[j]] := hgin
    _ = (perm s'.gin)[j] := (perm_getElem s'.gin j.val j.isLt).symm

/-! ### The canonical form at the port (R83) -/

theorem portRead_ginW (k : Fin 4) (s : State) : portRead (4#4 + BitVec.ofNat 4 k.val) s = laneWord s.gin k :=
  portRead_of_row s _ (portReg_ginW k) rfl

theorem portRead_goutW (k : Fin 4) (s : State) : portRead (8#4 + BitVec.ofNat 4 k.val) s = laneWord s.gout k :=
  portRead_of_row s _ (portReg_goutW k) rfl

/-- After a transcoding, byte lane `j` of GOUT word `k` is lane `n` of GIN word `m`, where P[4k+j] = 4m+n. -/
theorem portRead_goutW_lane (s : State) (k j m n : Fin 4)
    (hP : (permIndex[4 * k.val + j.val]).val = 4 * m.val + n.val) :
    (portRead (8#4 + BitVec.ofNat 4 k.val) { s with gout := perm s.gin }).extractLsb' (8 * j.val) 8 =
      (portRead (4#4 + BitVec.ofNat 4 m.val) s).extractLsb' (8 * n.val) 8 := by
  rw [portRead_goutW, portRead_ginW]
  simp only [laneWord_extractLsb', perm_getElem, Fin.getElem_fin, hP]

/-- P leaves bytes 8 to 15 where they are (R78). -/
theorem permIndex_of_high : ∀ j : Fin 16, 8 ≤ j.val → permIndex[j] = j := by decide

theorem perm_getElem_of_high (x : Buffer) (j : Nat) (hj : j < 16) (hhigh : 8 ≤ j) : (perm x)[j] = x[j] := by
  have hP : permIndex[j] = ⟨j, hj⟩ := permIndex_of_high ⟨j, hj⟩ hhigh
  simp only [perm_getElem, hP, Fin.getElem_fin]

/-- After a transcoding, words 2 and 3 of GOUT are those of GIN. -/
theorem portRead_goutW_of_high (s : State) (k : Fin 4) (hk : 2 ≤ k.val) :
    portRead (8#4 + BitVec.ofNat 4 k.val) { s with gout := perm s.gin } =
      portRead (4#4 + BitVec.ofNat 4 k.val) s := by
  have hbyte (j : Nat) (hj : 4 * k.val + j < 16) : (perm s.gin)[4 * k.val + j] = s.gin[4 * k.val + j] :=
    perm_getElem_of_high s.gin _ hj (by omega)
  rw [portRead_goutW, portRead_ginW]
  simp only [laneWord, hbyte, perm_getElem_of_high s.gin (4 * k.val) (by omega) (by omega)]

/-- Settles O44: P reverses bytes 0 to 3, 4 to 5 and 6 to 7, and leaves bytes 8 to 15 (R78). -/
theorem canonicalFormIsBigEndian : Obligations.CanonicalFormIsBigEndian := by
  have hword0 : ∀ j : Fin 4, (permIndex[j.val]).val = 3 - j.val := by decide
  have hword1 : ∀ h j : Fin 2, (permIndex[4 + (2 * h.val + j.val)]).val = 4 + (2 * h.val + (1 - j.val)) := by decide
  unfold Obligations.CanonicalFormIsBigEndian
  intro s t h
  rw [exec_guidDec] at h
  cases h
  refine ⟨fun j => ?_, fun h j => ?_, portRead_goutW_of_high s 2 (by decide), portRead_goutW_of_high s 3 (by decide)⟩
  · exact portRead_goutW_lane s 0 j 0 ⟨3 - j.val, by omega⟩ (by simp [hword0])
  · have hlane (n : Nat) : 16 * h.val + 8 * n = 8 * (2 * h.val + n) := by omega
    rw [hlane, hlane]
    exact portRead_goutW_lane s 1 ⟨2 * h.val + j.val, by omega⟩ 1 ⟨2 * h.val + (1 - j.val), by omega⟩ (hword1 h j)

/-! ### A load and a transcoding through the block (R82, R87, R112) -/

/-- Loads of bytes of `x`, each to its own index, in any order: GIN holds the bytes loaded, and nothing else
of the block changes. -/
theorem servedAll_loads (x : Buffer) (order : List (Fin 16)) (s : State) :
    servedAll (order.map fun j => command (.guidLd (BitVec.ofFin j) x[j])) s =
      { s with gin := Vector.ofFn fun j => if j ∈ order then x[j] else s.gin[j] } := by
  induction order generalizing s with
  | nil => simp [servedAll]
  | cons k order ih =>
    rw [List.map_cons, servedAll, ih, served_command]
    simp only [performedState, State.setGin]
    congr 2
    funext j
    by_cases hjk : j = k
    · simp [hjk, bufferIndex]
    · have hne : k.val ≠ j.val := fun e => hjk (Fin.ext e.symm)
      simp [hjk, bufferIndex, Vector.getElem_set_ne _ _ hne]

theorem length_loadGuid (x : Buffer) : (loadGuid x).length = 16 := by
  simp [loadGuid]

/-- All 16 loads together replace GIN, whatever it held. -/
theorem servedAll_loadGuid (x : Buffer) (s : State) : servedAll (loadGuid x) s = { s with gin := x } := by
  rw [loadGuid, servedAll_loads]
  simp

/-- The loads and a transcoding command leave the GUID in GIN and PERM of it in GOUT, and nothing else of the
block changes. -/
theorem servedAll_loadGuid_transcode (x : Buffer) (i : Instr) (hi : i ∈ [Instr.guidDec, .guidEnc]) (s : State) :
    servedAll (loadGuid x ++ [command i]) s = { s with gin := x, gout := perm x } := by
  simp only [List.mem_cons, List.not_mem_nil, or_false] at hi
  rw [servedAll_append, servedAll_loadGuid, servedAll, served_command]
  rcases hi with rfl | rfl <;> rfl

/-- Settles O43: either command writes PERM of what was loaded, and PERM is its own inverse. -/
theorem guidRoundTripThroughTheBlock : Obligations.GuidRoundTripThroughTheBlock := by
  unfold Obligations.GuidRoundTripThroughTheBlock
  intro s x i k hi hk
  have hrun (y : Buffer) (c : Instr) (hc : c ∈ [Instr.guidDec, .guidEnc]) (u : State) :
      runSteps 17 (u.facing (loadGuid y ++ [command c])) = .next { u with gin := y, gout := perm y } := by
    rw [← servedAll_loadGuid_transcode y c hc]
    exact runSteps_facing_of_length _ u (by simp [length_loadGuid])
  exact ⟨_, _, hrun x i hi s, rfl, rfl, hrun (perm x) k hk _, perm_perm x⟩

/-- The four port words of a buffer, in order (R33). -/
def bufferWords (x : Buffer) : List Word := [laneWord x 0, laneWord x 1, laneWord x 2, laneWord x 3]

/-- The words of a buffer, taken apart again, are its bytes in order (R33). -/
theorem flatMap_wordBytes_bufferWords (x : Buffer) : (bufferWords x).flatMap wordBytes = x.toList := by
  simp only [bufferWords, List.flatMap_cons, List.flatMap_nil, wordBytes_laneWord]
  conv_rhs => rw [← Vector.ofFn_getElem (xs := x), Vector.toList_ofFn]
  rfl

/-- A decoding leaves the GUID in GIN and its canonical form in GOUT, and hands over the words of GOUT. -/
theorem servedAll_decodeGuid (x : Buffer) (s : State) :
    servedAll (decodeGuid x) s =
      { s with gin := x, gout := perm x, reads := s.reads ++ bufferWords (perm x) } := by
  have hread := servedAll_map_read [8#4, 9#4, 10#4, 11#4] { s with gin := x, gout := perm x }
  calc servedAll (decodeGuid x) s
    _ = servedAll (loadGuid x ++ [command .guidDec] ++ readGout) s := by rw [decodeGuid, List.append_cons]
    _ = servedAll readGout { s with gin := x, gout := perm x } := by
      rw [servedAll_append, servedAll_loadGuid_transcode x .guidDec (by simp)]
    _ = _ := hread

/-- Settles O57: the run is one decoding, and the host issues decodings of the GUIDs it takes from the
image. -/
theorem imageGuidsAreDecodedThroughTheBlock : Obligations.ImageGuidsAreDecodedThroughTheBlock := by
  unfold Obligations.ImageGuidsAreDecodedThroughTheBlock
  refine ⟨fun s x => ?_, fun blockSize image ts h => ?_, fun blockSize image i ts h => ?_⟩
  · have hrun : runSteps 21 (s.facing (decodeGuid x)) = .next (servedAll (decodeGuid x) s) :=
      runSteps_facing_of_length _ s (by simp [decodeGuid, length_loadGuid, readGout])
    rw [servedAll_decodeGuid] at hrun
    exact ⟨_, bufferWords (perm x), hrun, rfl, rfl, rfl, rfl, rfl, rfl, flatMap_wordBytes_bufferWords _⟩
  · obtain ⟨x, hx, rfl⟩ := Option.map_eq_some_iff.1 h
    exact ⟨x, hx, rfl⟩
  · obtain ⟨x, hx, h⟩ := Option.bind_eq_some_iff.1 h
    obtain ⟨y, hy, h⟩ := Option.bind_eq_some_iff.1 h
    cases h
    exact ⟨x, y, hx, hy, rfl⟩

/-! ### Where the GUIDs stand in the image (R87, R88) -/

/-- disk_guid is the 16 bytes at header offset 56. -/
theorem diskGuid_eq_some (blockSize : Nat) (image : Image) (x : Buffer) :
    diskGuid blockSize image = some x ↔ ∀ j : Fin 16, image[blockSize + 56 + j.val]? = some x[j] := by
  rw [diskGuid, headerStart_eq, Image.guid_eq_some, diskGuidOffset]

/-- The entries the header's fields give, and no others. -/
theorem partEntryStart_eq (blockSize : Nat) (image : Image) (lba count size : Nat)
    (hlba : image.field (blockSize + 72) 8 = some lba) (hcount : image.field (blockSize + 80) 4 = some count)
    (hsize : image.field (blockSize + 84) 4 = some size) (i : Nat) :
    partEntryStart blockSize image i = if i < count then some (blockSize * lba + i * size) else none := by
  rw [← headerStart_eq blockSize] at hlba hcount hsize
  simp [partEntryStart, partArray_eq_some blockSize image lba count size hlba hcount hsize]

/-- Settles O56: each GUID is the 16 bytes read at its place, and the place of an entry is given by the
header's fields. -/
theorem guidsStandWhereTheLayoutSays : Obligations.GuidsStandWhereTheLayoutSays := by
  unfold Obligations.GuidsStandWhereTheLayoutSays
  intro blockSize image
  refine ⟨diskGuid_eq_some blockSize image, fun lba count size hlba hcount hsize => ?_⟩
  have hentry := partEntryStart_eq blockSize image lba count size hlba hcount hsize
  refine ⟨fun i x hi => ?_, fun i hi => ?_⟩
  · have hstart : partEntryStart blockSize image i = some (blockSize * lba + i * size) := by rw [hentry, if_pos hi]
    simp only [partTypeGuid, uniqueUuid, hstart, Option.bind_eq_bind, Option.bind_some, Image.guid_eq_some]
    exact ⟨Iff.rfl, Iff.rfl⟩
  · have hnone : partEntryStart blockSize image i = none := by rw [hentry, if_neg (Nat.not_lt.2 hi)]
    simp only [partTypeGuid, uniqueUuid, hnone, Option.bind_eq_bind, Option.bind_none, and_self]

/-- Settles O58: zeroing the checksum field leaves offsets 56 to 71, where the bytes covered are the image's,
as those of disk_guid are. -/
theorem headerChecksumTakesTheOnDiskGuid : Obligations.HeaderChecksumTakesTheOnDiskGuid := by
  unfold Obligations.HeaderChecksumTakesTheOnDiskGuid
  intro blockSize image covered x hcovered hguid j hj
  obtain ⟨-, hbyte, -⟩ := headerChecksumThroughTheBlock blockSize image covered hcovered
  calc covered[56 + j.val]?
    _ = image[blockSize + (56 + j.val)]? := by rw [hbyte _ hj, if_neg (by omega)]
    _ = some x[j] := by rw [← Nat.add_assoc]; exact (diskGuid_eq_some blockSize image x).1 hguid j

end Sys2Proof.Machine
end

section
/-! PROOFS. Control (42_control.md): the word and the effect of NOP (R89), and what executing a word and one
step do (R90). -/

namespace Sys2Proof.Machine

/-! ### Executing a word (R90) -/

/-- Executing a word that decodes to Illegal raises IllegalCommand (R90). -/
theorem execute_of_decode_illegal (w : Word) (s : State) (e : IllegalWord) (h : decode w = .illegal e) :
    execute w s = .next (raiseIllegalCommand s) := by
  simp [execute, h]

/-- Settles O6: the two answers of the decoder are the two branches of execute. -/
theorem executePerformsTheDecodedCommand : Obligations.ExecutePerformsTheDecodedCommand := by
  unfold Obligations.ExecutePerformsTheDecodedCommand
  exact ⟨fun s w => execute_of_decode w s, fun s w => execute_of_decode_illegal w s⟩

/-! ### One step (R8, R31, R90) -/

/-- A step whose oldest request is a port transaction is that transaction. -/
theorem step_port (s : State) (x : Transaction) (rest : List HostRequest) :
    step { s with pending := .port x :: rest } = transact x { s with pending := rest } :=
  (step_cons _ (.port x) rest rfl).trans (serve_port x _)

/-- Settles O7: the step is the oldest transaction, and a Write to CMD executes its word. -/
theorem stepRunsTheDecodedCommand : Obligations.StepRunsTheDecodedCommand := by
  unfold Obligations.StepRunsTheDecodedCommand
  refine ⟨step_port, fun s w rest i h => ?_⟩
  rw [step_port, transact_write_cmd, execute_of_decode w _ i h]

/-! ### NOP (R89) -/

theorem eq_nop_of_opcodeOf (k : Instr) (h : opcodeOf k = opcodeOf .nop) : k = .nop := by
  revert h
  cases k <;> simp [opcodeOf]

theorem exec_nop (s : State) : exec .nop s = .next s := rfl

/-- Settles O22: OP = 0x00 is NOP's alone, which has one word, and NOP answers the state it was given. -/
theorem nopChangesNothing : Obligations.NopChangesNothing := by
  obtain ⟨hword, -⟩ := commandWordsOfTheTable
  unfold Obligations.NopChangesNothing
  refine ⟨hword, fun w hop hw => ?_, exec_nop⟩
  exact isIllegal_of_op_of_unique .nop eq_nop_of_opcodeOf w hop (hword ▸ hw)

end Sys2Proof.Machine
end

section
/-! PROOFS. Exceptions (60_exceptions.md): what an illegal word does (R95), how long ILL stays and what it
tells (R96), that a command completes whatever ILL is and leaves it (R94, R97), and that a clean host stream
never raises (R118). -/

namespace Sys2Proof.Machine

/-! ### The illegal word (R95) -/

/-- Settles O16: executing a word is its Write to CMD, which raises IllegalCommand, and that sets ILL. -/
theorem illegalWordOnlySetsIll : Obligations.IllegalWordOnlySetsIll := by
  unfold Obligations.IllegalWordOnlySetsIll
  intro s w h
  calc execute w s
    _ = portWrite 0#4 w s := (transact_write_cmd w s).symm
    _ = .next (raiseIllegalCommand s) := portWrite_cmd_of_illegal w s h

/-! ### A command and ILL (R94, R97) -/

/-- Settles O28: the next state of a command is `performedState`, which leaves ILL. -/
theorem everyCommandCompletes : Obligations.EveryCommandCompletes := by
  unfold Obligations.EveryCommandCompletes
  exact fun i s => ⟨performedState i s, exec_eq i s, performedState_ill i s⟩

/-- A command does not read ILL: setting ILL before it or after it is the same. -/
theorem performedState_withIll (i : Instr) (s : State) (f : Bool) :
    performedState i { s with ill := f } = { performedState i s with ill := f } := by
  cases i <;> rfl

/-- Settles O18: the next state of a command is `performedState`, which does not read ILL. -/
theorem illDoesNotChangeCommands : Obligations.IllDoesNotChangeCommands := by
  unfold Obligations.IllDoesNotChangeCommands
  intro i s t f h
  rw [exec_eq] at h
  cases h
  rw [exec_eq, performedState_withIll]

/-! ### ILL over transactions and steps (R96) -/

/-- Over transactions without a Reset, ILL records whether one of them wrote an illegal word. -/
theorem servedAll_ill (ts : List Transaction) (s : State) (h : ts.any isReset = false) :
    (servedAll ts s).ill = (s.ill || ts.any writesIllegal) := by
  induction ts generalizing s with
  | nil => simp [servedAll]
  | cons x xs ih =>
    obtain ⟨hx, hxs⟩ : isReset x = false ∧ xs.any isReset = false := by simpa using h
    calc (servedAll (x :: xs) s).ill
      _ = ((served x s).ill || xs.any writesIllegal) := ih (served x s) hxs
      _ = (s.ill || (x :: xs).any writesIllegal) := by simp [served_ill, hx, Bool.or_assoc]

theorem isReset_wordTransaction (widx : Index4) (op : BusOp) : isReset (wordTransaction widx op) = false := by
  cases op <;> rfl

/-- The host's bus carries Reads and Writes: Reset is a transaction of the port alone. -/
theorem eq_port_reset_of_isReset (q : HostRequest) (x : Transaction) (hq : q.transaction = some x)
    (hx : isReset x = true) : q = .port .reset := by
  cases q with
  | port y =>
    cases hq
    cases x with
    | reset => rfl
    | write widx data => cases hx
    | read widx => cases hx
  | bus a =>
    obtain ⟨-, rfl⟩ : wholeAlignedWord a = true ∧ wordTransaction (widxOfOffset a.offset) a.op = x := by
      simpa [HostRequest.transaction, busTransaction] using hq
    simp [isReset_wordTransaction] at hx

/-- Settles O17: a step that serves no Reset leaves a set ILL set, and a run without a Reset is the fold
whose ILL `servedAll_ill` gives. -/
theorem illIsStickyUntilReset : Obligations.IllIsStickyUntilReset := by
  unfold Obligations.IllIsStickyUntilReset
  constructor
  · intro s t hstep hill
    rcases step_next_cases s t hstep with ⟨-, rfl⟩ | ⟨q, rest, x, hp, hq, rfl⟩
    · exact .inl hill
    · cases hx : isReset x with
      | true => exact .inr (by rw [hp, eq_port_reset_of_isReset q x hq hx, List.head?_cons])
      | false => exact .inl (by simp [served_ill, hx, hill])
  · exact fun s ts h => ⟨servedAll ts s, runSteps_facing ts s, servedAll_ill ts s h⟩

/-! ### A clean host stream (R118) -/

/-- A clean request is one transaction at the port, and writes no illegal word. -/
theorem HostRequest.clean_iff (q : HostRequest) :
    q.clean = true ↔ ∃ x, q.transaction = some x ∧ writesIllegal x = false := by
  cases q with
  | port y => simp [HostRequest.clean, HostRequest.transaction]
  | bus a => cases h : busTransaction a <;> simp [HostRequest.clean, HostRequest.transaction, h]

/-- A transaction that writes no illegal word raises nothing, and leaves the requests to come. -/
theorem served_clean (x : Transaction) (s : State) (hx : writesIllegal x = false) (h : s.Clean) :
    (served x s).Clean := by
  obtain ⟨hill, hpending⟩ := h
  exact ⟨by simp [served_ill, hill, hx], by rwa [served_pending]⟩

/-- Settles O40: a step waits, or serves the oldest request, which is one transaction of a clean stream. -/
theorem cleanStreamStaysClean : Obligations.CleanStreamStaysClean := by
  unfold Obligations.CleanStreamStaysClean
  intro s h
  cases hp : s.pending with
  | nil => exact ⟨s, step_nil s hp, h⟩
  | cons q rest =>
    obtain ⟨hill, hpending⟩ := h
    rw [hp] at hpending
    obtain ⟨hclean, hrest⟩ := List.forall_mem_cons.1 hpending
    obtain ⟨x, hq, hx⟩ := q.clean_iff.1 hclean
    refine ⟨served x { s with pending := rest }, ?_, served_clean x _ hx ⟨hill, hrest⟩⟩
    rw [step_cons s q rest hp, serve_of_transaction q x _ hq, transact_eq]

end Sys2Proof.Machine
end

section
/-! PROOFS. Reset and hazards (70_reset_and_hazards.md): what a Reset sets (R109), and that the 16 loads may
come in any order (R112). -/

namespace Sys2Proof.Machine

/-! ### The loads in any order (R112) -/

/-- Loads that reach every index leave GIN with the bytes loaded and nothing of what it held. -/
theorem servedAll_loads_of_forall_mem (x : Buffer) (order : List (Fin 16)) (hall : ∀ j, j ∈ order) (s : State) :
    servedAll (order.map fun j => command (.guidLd (BitVec.ofFin j) x[j])) s = { s with gin := x } := by
  rw [servedAll_loads]
  simp [hall]

/-- Settles O46: a reordering of the 16 indices still has 16 entries and holds every index. -/
theorem loadOrderDoesNotMatter : Obligations.LoadOrderDoesNotMatter := by
  unfold Obligations.LoadOrderDoesNotMatter
  intro s x order horder
  have hall (j : Fin 16) : j ∈ order := horder.mem_iff.2 (List.mem_finRange j)
  have hlength : order.length = 16 := horder.length_eq.trans List.length_finRange
  rw [runSteps_facing_of_length _ s (by rw [List.length_map, hlength]), servedAll_loads_of_forall_mem x order hall]

/-! ### Reset (R109) -/

/-- Settles O19: a Reset is `resetBlock`, which writes the values of R109 whatever the elements held. -/
theorem resetSetsEveryElement : Obligations.ResetSetsEveryElement := by
  unfold Obligations.ResetSetsEveryElement
  exact fun s => rfl

end Sys2Proof.Machine
end

section
/-! PROOFS. Words written out from the encodings (30_encoding.md R47, R48), and the illegal words of
95_test_vectors.md 2.5, each by the rule that makes it illegal. -/

namespace Sys2Proof.Machine

/-- A word whose OP is no command's is illegal (R55). -/
theorem isIllegal_of_op_reserved (w : Word) (hop : ∀ i, w.extractLsb' 24 8 ≠ opcodeOf i) : isIllegal w = true := by
  by_contra hlegal
  obtain ⟨i, hi⟩ := exists_splitFields_of_legal w hlegal
  exact hop i (congrArg FormatC.op hi)

/-- Settles O5: each legal word is its command's, and each illegal word breaks the rule that section 2.5 gives
for it: RSV is not 0 (R51), a field the command does not use is not 0 (R52), or OP is reserved (R55). -/
theorem writtenOutWordsDecode : Obligations.WrittenOutWordsDecode := by
  unfold Obligations.WrittenOutWordsDecode
  simp only [decode_eq_command_iff]
  refine ⟨by decide, by decide, by decide, by decide, by decide, by decide, by decide,
    ?nopImm, ?nopIdx, ?initImm, ?initRsv, ?feedIdx, ?feedRsv, ?op03, ?ldRsv, ?encIdx, ?opFF⟩
  case nopImm | nopIdx => exact isIllegal_of_op_of_unique .nop eq_nop_of_opcodeOf _ (by decide) (by decide)
  case initImm => exact isIllegal_of_op_crcInit _ (by decide) (by decide)
  case feedIdx => exact isIllegal_of_op_crcFeed _ (by decide) (by decide)
  case encIdx => exact isIllegal_of_op_of_unique .guidEnc eq_guidEnc_of_opcodeOf _ (by decide) (by decide)
  case initRsv | feedRsv | ldRsv => exact isIllegal_of_rsv_ne_zero _ (by decide)
  case op03 | opFF =>
    refine isIllegal_of_op_reserved _ fun i => ?_
    cases i <;> simp [opcodeOf]

end Sys2Proof.Machine
end
